-- ==== Sys2Proof/Word.lean ====
section
/-! DEFINITION. The widths of spec/00_scope.md R7 as types. Every quantity is unsigned (R11). -/

namespace Sys2Proof

/-- An input or output unit, `BYTE_W` = 8 bits (R7). -/
abbrev Byte := BitVec 8

/-- The leftover, `NIB_W` = 4 bits (R7, R27). -/
abbrev Nibble := BitVec 4

/-- A code, `CODE_W` = 12 bits (R7, R85). -/
abbrev Code := BitVec 12

/-- A fetched value `f[12:0]`: a code, or the sentinel `EOS` = 4096 (R86). Also the width of `nfi` (R30). -/
abbrev Fetched := BitVec 13

end Sys2Proof
end

