-- ==== Sys2Proof/Config.lean ====
section
/-! DEFINITION. The fixed parameters of spec/00_scope.md R7 and R8. None is configurable (R7, R10); the one
open parameter, `LEN_W` (R9), is not needed: `len` and `pos` are unbounded natural numbers, as R9 allows
(log entry 4). The spec leaves no value undefined after an instruction, so there is no free value here. -/

namespace Sys2Proof.Config

/-- `DICT_SIZE`: number of dictionary slots (R7). -/
@[simp] abbrev dictSize : Nat := 4096

/-- `N_LIT`: number of literal entries, and the first free index (R7). -/
@[simp] abbrev numLit : Nat := 256

/-- `N_LIT` as a value of the cursor `nfi` (R7). -/
@[simp] abbrev firstFree : Fetched := 256#13

/-- `EOS`: the sentinel meaning no more codes (R7, R86). -/
@[simp] abbrev eos : Fetched := 4096#13

/-- `CAPACITY`: the value of `nfi` at which the dictionary resets (R7). -/
@[simp] abbrev capacity : Fetched := 4096#13

/-- `MAX_ENTRY_LEN`, the longest entry (R8). -/
@[simp] abbrev maxEntryLen : Nat := 3841

end Sys2Proof.Config
end

