-- ==== Sys2Proof/Syntax.lean ====
section
/-! DEFINITION. The operations of spec/opcode_table.json, one constructor a row (30_encoding.md R98). The fields of
a constructor are the fields of the row's encoding, or the operand the row's rule names. -/

namespace Sys2Proof

inductive Instr where
  /-- `NC.PAIR0` (R111), bits `aaaaaaaaaaaannnn`: code A and the nibble to keep. -/
  | ncPair0 (a : Code) (n : Nibble)
  /-- `NC.PAIR1` (R112), bits `bbbbbbbb`: the low byte of code B. -/
  | ncPair1 (b : Byte)
  /-- `NC.TAIL` (R113), bits `aaaaaaaaaaaapppp`: code A and the padding. -/
  | ncTail (a : Code) (p : Nibble)
  /-- `NC.EOS0` (R114): no bits. -/
  | ncEos0
  /-- `NC.EOS1` (R115), bits `xxxxxxxx`: the dangling byte. -/
  | ncEos1 (x : Byte)
  /-- `NC.EOSN` (R116): no bits. -/
  | ncEosn
  /-- `E.FIRST` (R151), fetched value `00000bbbbbbbb`: a literal first code. -/
  | eFirst (b : Byte)
  /-- `E.FIRSTBAD` (R152), fetched value `ecccccccccccc`: `EOS`, or a first code from 256 up. -/
  | eFirstBad (f : Fetched)
  /-- `E.EOS` (R154), fetched value `1000000000000`. -/
  | eEos
  /-- `E.BAD` (R155), fetched value `0cccccccccccc`. -/
  | eBad (c : Code)
  /-- `E.STALE` (R156), fetched value `0cccccccccccc`. -/
  | eStale (c : Code)
  /-- `E.KWKWK` (R158), fetched value `0cccccccccccc`. -/
  | eKwkwk (c : Code)
  /-- `E.KNOWN` (R157), fetched value `0cccccccccccc`. -/
  | eKnown (c : Code)
  /-- `D.INIT` (R130). -/
  | dInit
  /-- `D.GET` (R131): the code looked up. -/
  | dGet (c : Code)
  /-- `D.APPEND` (R132): the byte sequence stored. -/
  | dAppend (entry : List Byte)
  /-- `D.RESET` (R133). -/
  | dReset
  /-- `D.TEARDOWN` (R134). -/
  | dTeardown
  /-- `S.START` (R180): the input length `L`. -/
  | sStart (len : Nat)
  deriving DecidableEq, Repr

end Sys2Proof
end

