-- ==== Sys2Proof/WellFormed.lean ====
section
/-! DEFINITION. The static checks on operands: the ranges the rules give an operand whatever the state is. The
dynamic conditions (`nfi`, `prev`, `lo_pend`, `rem`) are the decoder's and the meanings'. -/

namespace Sys2Proof

/-- Operand ranges. `E.FIRSTBAD`: 256 to 4096 (R152). `E.BAD`: above `nfi`, which is at least 256 (R155). `E.KWKWK`:
equal to `nfi`, "so always a `REF` code, 256 to 4095" (R158). `E.KNOWN`: below `nfi`, which is at most 4095 (R157).
`D.APPEND`: 2 to 3841 bytes (R132). -/
def Instr.wf : Instr → Bool
  | .eFirstBad f => decide (256 ≤ f.toNat) && decide (f.toNat ≤ 4096)
  | .eBad c => decide (257 ≤ c.toNat)
  | .eKwkwk c => decide (256 ≤ c.toNat)
  | .eKnown c => decide (c.toNat ≤ 4094)
  | .dAppend entry => decide (2 ≤ entry.length) && decide (entry.length ≤ Config.maxEntryLen)
  | .ncPair0 _ _ | .ncPair1 _ | .ncTail _ _ | .ncEos0 | .ncEos1 _ | .ncEosn => true
  | .eFirst _ | .eEos | .eStale _ => true
  | .dInit | .dGet _ | .dReset | .dTeardown | .sStart _ => true

end Sys2Proof
end

