-- ==== Sys2Proof/Decode.lean ====
section
/-! DEFINITION. The decoder and the encoder. The stream's decoder has two stages (30_encoding.md R94, R87): the fetch
form is chosen by `lo_pend` and `rem` alone, the class by the fetched value against `nfi` and `prev`. Then the encoder,
from the same layouts (R81 to R86), and `pack` (R96). -/

namespace Sys2Proof

/-- Why a decoder gives no instruction. -/
inductive Reject where
  /-- The bytes the form consumes are not all there: `needed` of them, `present` are. -/
  | shortInput (needed present : Nat)
  /-- A value above 4096, which no fetch returns (R28, R86). -/
  | noSuchValue
  /-- A first code is classified against a dictionary of literals only, `nfi` = 256 (R87). -/
  | noDictionary
  deriving DecidableEq, Repr

/-! ## Operand assembly (R84) -/

/-- `A = (B0 << 4) | (B1 >> 4)` (R84). -/
def codeA (b0 b1 : Byte) : Code := (b0.setWidth 12 <<< 4) ||| (b1.setWidth 12 >>> 4)

/-- `lo_nib = B1 & 0xF` (R84). -/
def lowNibble (b1 : Byte) : Nibble := (b1 &&& 0xF#8).setWidth 4

/-- `B = (lo_nib << 8) | B2` (R84). -/
def codeB (n : Nibble) (b2 : Byte) : Code := (n.setWidth 12 <<< 8) ||| b2.setWidth 12

/-- `zext_13` of a code (R11, R86). -/
def zext13 (c : Code) : Fetched := c.setWidth 13

/-- `cur[11:0]` of a fetched value (R86). -/
def low12 (f : Fetched) : Code := f.setWidth 12

/-! ## The decoder -/

/-- How many bytes the form chosen by `lo_pend` and `rem` consumes (R94). -/
def formBytes (loPend : Bool) (rem : Nat) : Nat :=
  if loPend then (if 1 ≤ rem then 1 else 0)
  else if 2 ≤ rem then 2 else rem

/-- The fetch form (R94, R110), with the fields of the bytes it consumes (R81 to R83). -/
def decodeFetch (loPend : Bool) (rem : Nat) (bytes : List Byte) : Except Reject Instr :=
  if loPend then
    if 1 ≤ rem then
      match bytes with
      | b2 :: _ => .ok (.ncPair1 b2)
      | [] => .error (.shortInput 1 0)
    else .ok .ncEosn
  else if 3 ≤ rem then
    match bytes with
    | b0 :: b1 :: _ => .ok (.ncPair0 (codeA b0 b1) (lowNibble b1))
    | _ => .error (.shortInput 2 bytes.length)
  else if rem = 2 then
    match bytes with
    | b0 :: b1 :: _ => .ok (.ncTail (codeA b0 b1) (lowNibble b1))
    | _ => .error (.shortInput 2 bytes.length)
  else if rem = 1 then
    match bytes with
    | b0 :: _ => .ok (.ncEos1 b0)
    | [] => .error (.shortInput 1 0)
  else .ok .ncEos0

/-- The class of the first value of a session (R87, first table): `f < nfi`, or `f >= nfi`, with `nfi` = 256. -/
def decodeFirst (nfi f : Fetched) : Except Reject Instr :=
  if Config.eos < f then .error .noSuchValue
  else if nfi ≠ Config.firstFree then .error .noDictionary
  else if f < nfi then .ok (.eFirst (f.setWidth 8))
  else .ok (.eFirstBad f)

/-- The class of a later value, tested in the order of R87's second table (R153). -/
def decodeLoop (nfi : Fetched) (prev : Code) (f : Fetched) : Except Reject Instr :=
  if f = Config.eos then .ok .eEos
  else if Config.eos < f then .error .noSuchValue
  else if nfi < f then .ok (.eBad (low12 f))
  else if nfi ≤ zext13 prev then .ok (.eStale (low12 f))
  else if f = nfi then .ok (.eKwkwk (low12 f))
  else .ok (.eKnown (low12 f))

/-- The `n` bytes of a number, the least significant first. -/
def bytesOf : Nat → Nat → List Byte
  | 0, _ => []
  | n + 1, w => BitVec.ofNat 8 w :: bytesOf n (w / 256)

/-- The host's question about one table word: the fetch form read from an input that consists of exactly the `nbits / 8`
bytes of `w`, at the start of a session (`lo_pend` = 0), since the length of the input is part of the encoding (R94;
log entry 17). -/
def decodeTableWord (nbits w : Nat) : Option Instr :=
  match decodeFetch false (nbits / 8) (bytesOf (nbits / 8) w) with
  | .ok i => some i
  | .error _ => none

/-! ## The encoder -/

/-- `B0` of a code A: bits 11 to 4 (R81). -/
def byteHi (a : Code) : Byte := (a >>> 4).setWidth 8

/-- `B1` of a code A and a nibble: `A[3:0]` above the nibble (R81, R82). -/
def byteLo (a : Code) (n : Nibble) : Byte := (a.setWidth 8 <<< 4) ||| n.setWidth 8

/-- The bits of a row: the bytes a fetch form consumes (R81 to R83), the 13-bit fetched value of a class (R87), nothing for
an operation that no bits of the stream select (R98). -/
def encode : Instr → Option (List Byte ⊕ Fetched)
  | .ncPair0 a n => some (.inl [byteHi a, byteLo a n])
  | .ncPair1 b => some (.inl [b])
  | .ncTail a p => some (.inl [byteHi a, byteLo a p])
  | .ncEos0 => some (.inl [])
  | .ncEos1 x => some (.inl [x])
  | .ncEosn => some (.inl [])
  | .eFirst b => some (.inr (b.setWidth 13))
  | .eFirstBad f => some (.inr f)
  | .eEos => some (.inr Config.eos)
  | .eBad c => some (.inr (zext13 c))
  | .eStale c => some (.inr (zext13 c))
  | .eKwkwk c => some (.inr (zext13 c))
  | .eKnown c => some (.inr (zext13 c))
  | .dInit => none
  | .dGet _ => none
  | .dAppend _ => none
  | .dReset => none
  | .dTeardown => none
  | .sStart _ => none

/-- The bytes that carry a list of codes (R96). -/
def pack : List Code → List Byte
  | [] => []
  | [c] => [byteHi c, byteLo c 0#4]
  | a :: b :: rest => byteHi a :: byteLo a ((b >>> 8).setWidth 4) :: b.setWidth 8 :: pack rest

end Sys2Proof
end

