-- ==== Sys2Proof/Machine/State.lean ====
section
/-! DEFINITION. The state of the core (10_state.md R20) with the host's objects and level inputs it reads, as plain data,
and the state right after hardware reset (R39). -/

namespace Sys2Proof.Machine

/-- `state` (R21). Finished and Failed are terminal (R161). -/
inductive Phase where
  | start
  | decoding
  | finished
  | failed
  deriving DecidableEq, Repr

/-- `err` (R22, R210). The values 5 to 7 do not exist (U11). -/
inductive ErrKind where
  | none
  /-- Allocated and never raised (R214). -/
  | incompleteStream
  /-- Raised by `E.FIRSTBAD` (R211). -/
  | invalidFirstCode
  /-- Raised by `E.BAD` (R212). -/
  | invalidCode
  /-- Raised by `E.STALE` (R213). -/
  | stalePreviousCode
  deriving DecidableEq, Repr

/-- The model's own: what the last `NC.*`, `D.GET` or `D.APPEND` operation returned (log entry 2). -/
inductive Ret where
  | none
  /-- A fetched value, from `nextCode` (R110). -/
  | fetched (f : Fetched)
  /-- A dictionary entry, from `D.GET` (R131). -/
  | entry (s : List Byte)
  /-- An index, from `D.APPEND` (R132). -/
  | index (k : Code)
  deriving DecidableEq, Repr

/-- The input space: cells of one byte at strictly rising positions (R51). A position that is not listed holds no byte: the
host has not supplied one (log entry 15). -/
abbrev Memory := List Host.Cell

/-- The dictionary: the populated slots, at strictly rising indices. A slot that is not listed is `none` (R31; log
entry 13). -/
abbrev Dict := List (Nat × List Byte)

structure State where
  /-- R21 -/
  state : Phase
  /-- R22 -/
  err : ErrKind
  /-- R23 -/
  trunc : Bool
  /-- R24 -/
  len : Nat
  /-- R25 -/
  pos : Nat
  /-- R26 -/
  loPend : Bool
  /-- R27 -/
  loNib : Nibble
  /-- R28 -/
  cur : Fetched
  /-- R29 -/
  prev : Code
  /-- R30 -/
  nfi : Fetched
  /-- R31 -/
  dict : Dict
  /-- `IN`, the host's (R35). -/
  input : Memory
  /-- `OUT`, the host's sink (R36). -/
  output : List Byte
  /-- The level of `rst` (R183, R240). -/
  rst : Bool
  /-- The level of `start` (R183, R185). -/
  start : Bool
  /-- The value of `in_len` (R183, R185). -/
  inLen : Nat
  /-- The model's own: the last returned value (log entry 2). -/
  ret : Ret
  deriving DecidableEq, Repr

/-- Why the machine stops with a fault. The core's own error kinds are not among them: they are states (`ErrKind`). -/
inductive Fault where
  /-- A write to dictionary slot 4096 or above, which does not exist (R55). Raised by `D.APPEND` with `nfi` at 4096 or above.
  Safe: no run reaches it (R132). -/
  | noSuchSlot
  deriving DecidableEq, Repr

/-- Why an operation has no meaning in a state. All are safe: the spec gives no effect there, and no run reaches them. -/
inductive Refusal where
  /-- An instruction without a meaning yet; raised by no meaning. Safe. -/
  | notModelled (mnemonic : String)
  /-- A fetch form or a class invoked in a state in which its selector or condition does not hold (R94, R87). Raised by the
  meanings of the `NC.*` and `E.*` rows. Safe. -/
  | notSelected
  /-- `D.GET` of a code with no entry (R131, U1). Raised by `D.GET` and by the classes that look up. Safe. -/
  | emptySlot
  /-- `D.APPEND` with `nfi` below 256 or an entry whose length is not 2 to 3841 (R132). Raised by `D.APPEND` and Commit.
  Safe. -/
  | appendOutsideDomain
  /-- No class for the value in hand. Raised by the code-level step when a fetch returned no value that a class covers.
  Safe: every fetch returns 0 to 4096 (R110). -/
  | noClass
  deriving DecidableEq, Repr

/-- What a meaning answers. -/
abbrev Result := Host.Outcome State Fault Refusal

/-- Right after hardware reset: the middle column of R39 (R240). The host's objects are empty and its inputs low (log
entries 5 and 6). -/
def State.reset : State where
  state := .start
  err := .none
  trunc := false
  len := 0
  pos := 0
  loPend := false
  loNib := 0#4
  cur := 0#13
  prev := 0#12
  nfi := 0#13
  dict := []
  input := []
  output := []
  rst := false
  start := false
  inLen := 0
  ret := .none

end Sys2Proof.Machine
end

