-- ==== Sys2Proof/Machine/Ops.lean ====
section
/-! DEFINITION. The named operations over cells, registers, the dictionary and the output, entry to Failed (60_exceptions.md
R217), and the two initialisations (10_state.md R39). -/

namespace Sys2Proof.Machine

/-- Continue with the next state; a fault or a refusal ends. -/
def andThen (r : Result) (k : State → Result) : Result :=
  match r with
  | .next s => k s
  | .fault e => .fault e
  | .refused e => .refused e

/-! ## Cells: the canonical form shared by the input space and the dictionary -/

/-- What stands at an address, if anything does. -/
def Cells.read {α : Type} : List (Nat × α) → Nat → Option α
  | [], _ => none
  | (k, v) :: rest, a => if a = k then some v else Cells.read rest a

/-- Put a value at an address, in order. -/
def Cells.write {α : Type} : List (Nat × α) → Nat → α → List (Nat × α)
  | [], a, v => [(a, v)]
  | (k, w) :: rest, a, v =>
    if a < k then (a, v) :: (k, w) :: rest
    else if a = k then (a, v) :: rest
    else (k, w) :: Cells.write rest a v

/-- Empty every address from `n` up. -/
def Cells.keepBelow {α : Type} (cells : List (Nat × α)) (n : Nat) : List (Nat × α) :=
  cells.filter fun cell => decide (cell.1 < n)

/-- A sequence laid out from an address up. -/
def Cells.ofSeq {α : Type} : Nat → List α → List (Nat × α)
  | _, [] => []
  | a, v :: rest => (a, v) :: Cells.ofSeq (a + 1) rest

/-- The `n` values from an address up, if all stand there. -/
def Cells.readSeq {α : Type} (cells : List (Nat × α)) : Nat → Nat → Option (List α)
  | _, 0 => some []
  | a, n + 1 =>
    match Cells.read cells a, Cells.readSeq cells (a + 1) n with
    | some v, some rest => some (v :: rest)
    | _, _ => none

/-- The canonical form: addresses strictly rising. -/
abbrev Cells.wf {α : Type} (cells : List (Nat × α)) : Prop := (cells.map Prod.fst).Pairwise (· < ·)

/-- The canonical form of the input space. -/
abbrev Memory.wf (m : Memory) : Prop := Cells.wf m

/-- The input space that holds a byte sequence at positions 0 up (R35). -/
def Memory.ofBytes (bytes : List Byte) : Memory := Cells.ofSeq 0 bytes

/-- The host lays bytes into the input space from a position up. -/
def Memory.load : Memory → Nat → List Byte → Memory
  | m, _, [] => m
  | m, a, b :: rest => Memory.load (Cells.write m a b) (a + 1) rest

/-! ## Input and output -/

/-- `rem = len - pos` (R110). -/
def State.rem (s : State) : Nat := s.len - s.pos

/-- `MemRead(a, n)`: the `n` input bytes from `a`, defined only when `a = pos` and `a + n <= len` (R52). It answers nothing
where it is not defined and where the host has not supplied a byte. -/
def State.memRead (s : State) (a n : Nat) : Option (List Byte) :=
  if a = s.pos ∧ a + n ≤ s.len then Cells.readSeq s.input a n else none

/-- `pos <- pos + n` (R25). -/
def State.advance (n : Nat) (s : State) : State := { s with pos := s.pos + n }

/-- `Emit(bytes)` (R54). -/
def State.emit (bytes : List Byte) (s : State) : State := { s with output := s.output ++ bytes }

/-- The value an operation returns (log entry 2). -/
def State.returning (r : Ret) (s : State) : State := { s with ret := r }

/-! ## Dictionary -/

/-- The 256 literal entries: slot `i` holds `[i]` (R130, R34). -/
def Dict.literals : Dict := Cells.ofSeq 0 ((List.range Config.numLit).map fun i => [BitVec.ofNat 8 i])

/-- The lookup of `D.GET(c)`: defined only for `c < nfi`, then the content of slot `c` (R131). -/
def State.dictGet (s : State) (c : Code) : Option (List Byte) :=
  if zext13 c < s.nfi then Cells.read s.dict c.toNat else none

/-- `D.INIT()` (R130). -/
def State.dictInit (s : State) : State := { s with dict := Dict.literals, nfi := Config.firstFree }

/-- Lines 1 to 3 of `D.APPEND(entry)` (R132): store at `nfi`, then count up. -/
def State.dictStore (entry : List Byte) (s : State) : State :=
  { s with dict := Cells.write s.dict s.nfi.toNat entry, nfi := s.nfi + 1 }

/-- `D.APPEND(entry)` inside its domain: `nfi` 256 to 4095, 2 to 3841 bytes (R132; log entry 11). -/
def State.dictAppend (entry : List Byte) (s : State) : Result :=
  if Config.capacity ≤ s.nfi then .fault .noSuchSlot
  else if s.nfi < Config.firstFree ∨ entry.length < 2 ∨ Config.maxEntryLen < entry.length then
    .refused .appendOutsideDomain
  else .next (s.dictStore entry)

/-- `D.RESET()` (R133). -/
def State.dictReset (s : State) : State :=
  { s with dict := Cells.keepBelow s.dict Config.numLit, nfi := Config.firstFree }

/-- `D.TEARDOWN()` (R134). -/
def State.dictTeardown (s : State) : State := { s with dict := [], nfi := 0#13 }

/-! ## Taking an exception -/

/-- `raise E`, `Fail(E)` (R217): teardown, then the number of the kind, then state Failed. Nothing is saved; all else is kept.
There is no handler and no return (R219): the only ways out are `S.START` and hardware reset. -/
def State.raise (e : ErrKind) (s : State) : State := { s.dictTeardown with err := e, state := .failed }

/-! ## The two initialisations -/

/-- `rst` (R240): every register of the core takes its reset value; the host's objects and inputs stay (R39, R241). -/
def State.hardReset (s : State) : State :=
  { State.reset with input := s.input, output := s.output, rst := s.rst, start := s.start, inLen := s.inLen }

/-- `SessionInit(L)`: lines 1 to 3 of `S.START` (R180), the right column of R39. -/
def State.sessionInit (len : Nat) (s : State) : State :=
  { s with
    len := len, pos := 0, loPend := false, loNib := 0#4
    err := .none, trunc := false, cur := 0#13, prev := 0#12, output := []
    state := .start }

/-- Lines 1 to 4 of `S.START` (R180): a fresh session with a live dictionary. -/
def State.beginSession (len : Nat) (s : State) : State := (s.sessionInit len).dictInit

end Sys2Proof.Machine
end

