-- ==== Sys2Proof/Machine/Operands.lean ====
section
/-! DEFINITION. Operand forms: the bytes of the next fetch form (R94, R52), the fetched value an engine class works on, and the
two parts of a candidate entry (R157, R158). -/

namespace Sys2Proof.Machine

/-- The next fetch form, from the bytes at `pos` (R110). It is rejected only when the host has not supplied a byte the form
consumes: then the core waits (R193 W2). -/
def State.fetch (s : State) : Except Reject Instr :=
  match formBytes s.loPend s.rem with
  | 0 => decodeFetch s.loPend s.rem []
  | n + 1 =>
    match s.memRead s.pos (n + 1) with
    | some bytes => decodeFetch s.loPend s.rem bytes
    | none => .error (.shortInput (n + 1) 0)

/-- The class of a fetched value in a state (R87, R150). Finished and Failed have no step (R161). -/
def State.classify (s : State) (f : Fetched) : Except Reject Instr :=
  match s.state with
  | .start => decodeFirst s.nfi f
  | .decoding => decodeLoop s.nfi s.prev f
  | .finished | .failed => .error .noDictionary

/-- `cur <- f`: the engine takes the fetched value (R153 line 1, R28; log entry 3). -/
def State.take (f : Fetched) (s : State) : State := { s with cur := f }

/-- `first(D.GET(c))`: byte 0 of the entry (R131, R58). -/
def State.firstByte (s : State) (c : Code) : Option Byte :=
  match s.dictGet c with
  | some (b :: _) => some b
  | _ => none

/-- The candidate entry of `E.KNOWN`: `D.GET(prev) ++ [first(D.GET(c))]` (R157). -/
def State.knownEntry (s : State) (c : Code) : Option (List Byte) :=
  match s.dictGet s.prev, s.firstByte c with
  | some p, some t => some (p ++ [t])
  | _, _ => none

/-- The candidate entry of `E.KWKWK`: `P ++ [P[0]]` with `P = D.GET(prev)` (R158). -/
def State.kwkwkEntry (s : State) : Option (List Byte) :=
  match s.dictGet s.prev, s.firstByte s.prev with
  | some p, some t => some (p ++ [t])
  | _, _ => none

end Sys2Proof.Machine
end

