-- ==== Sys2Proof/Machine/Flags.lean ====
section
/-! DEFINITION. Flags and status: the bits the reader writes, the comparisons the engine makes (R164), and the status outputs
the host sees (R188) in their encodings (R92, R93). -/

namespace Sys2Proof.Machine

/-! ## The reader's bits -/

/-- `lo_nib <- n`, `lo_pend <- 1` (R111). -/
def State.keepNibble (n : Nibble) (s : State) : State := { s with loNib := n, loPend := true }

/-- `lo_pend <- 0`; `lo_nib` keeps its value (R112, R27). -/
def State.clearPend (s : State) : State := { s with loPend := false }

/-- `trunc <- 1` (R115, R116, R23). -/
def State.setTrunc (s : State) : State := { s with trunc := true }

/-! ## Selectors of the fetch forms (R94) -/

def State.selPair0 (s : State) : Bool := !s.loPend && decide (3 ≤ s.rem)
def State.selPair1 (s : State) : Bool := s.loPend && decide (1 ≤ s.rem)
def State.selTail (s : State) : Bool := !s.loPend && decide (s.rem = 2)
def State.selEos0 (s : State) : Bool := !s.loPend && decide (s.rem = 0)
def State.selEos1 (s : State) : Bool := !s.loPend && decide (s.rem = 1)
def State.selEosn (s : State) : Bool := s.loPend && decide (s.rem = 0)

/-! ## Conditions of the classes (R87, R153) -/

/-- `state` = Start with `nfi` = 256, as it stands after `D.INIT` (R151, R152). -/
def State.atFirst (s : State) : Bool := decide (s.state = .start) && decide (s.nfi = Config.firstFree)

/-- `state` = Decoding (R153). -/
def State.inLoop (s : State) : Bool := decide (s.state = .decoding)

/-- `prev >= nfi`, with `prev` zero-extended (R153 line 4, R164). -/
def State.prevStale (s : State) : Bool := decide (s.nfi ≤ zext13 s.prev)

/-! ## Status outputs (R188) -/

/-- The encoding of `state` (R92). -/
def Phase.bits : Phase → BitVec 2
  | .start => 0#2
  | .decoding => 1#2
  | .finished => 2#2
  | .failed => 3#2

/-- The encoding of `err` (R93). -/
def ErrKind.bits : ErrKind → BitVec 3
  | .none => 0#3
  | .incompleteStream => 1#3
  | .invalidFirstCode => 2#3
  | .invalidCode => 3#3
  | .stalePreviousCode => 4#3

/-- `busy` at the code level: 1 exactly when `state` = Decoding (R37). -/
def State.busy (s : State) : Bool := decide (s.state = .decoding)

/-- `done` = (`state` = Finished) (R183). -/
def State.done (s : State) : Bool := decide (s.state = .finished)

/-- `fail` = (`state` = Failed) (R183). -/
def State.fail (s : State) : Bool := decide (s.state = .failed)

/-- The session has ended (R182). -/
def State.ended (s : State) : Bool := s.done || s.fail

/-- The observation of a run: the tuple (`state`, `err`, `trunc`, `OUT`) (R182). -/
structure Observation where
  state : Phase
  err : ErrKind
  trunc : Bool
  output : List Byte
  deriving DecidableEq, Repr

/-- What is observed of a state (R182). -/
def State.observation (s : State) : Observation := ⟨s.state, s.err, s.trunc, s.output⟩

end Sys2Proof.Machine
end

