-- ==== Sys2Proof/Machine/Dictionary.lean ====
section
/-! DEFINITION. The Dictionary's five operations as invoked on their own (41_dictionary.md). -/

namespace Sys2Proof.Machine

/-- `D.INIT` (R130). -/
def execDInit (s : State) : Result := .next s.dictInit

/-- `D.GET(c)` (R131): returns the entry, writes nothing of the machine. Outside `c < nfi` and on an empty slot it is refused, as
U1 asks. -/
def execDGet (c : Code) (s : State) : Result :=
  match s.dictGet c with
  | some entry => .next (s.returning (.entry entry))
  | none => .refused .emptySlot

/-- `D.APPEND(entry)` (R132): returns the index stored at. -/
def execDAppend (entry : List Byte) (s : State) : Result :=
  andThen (s.dictAppend entry) fun t => .next (t.returning (.index (low12 s.nfi)))

/-- `D.RESET` (R133). The test `nfi` = 4096 is the engine's (R159 line 3; log entry 12). -/
def execDReset (s : State) : Result := .next s.dictReset

/-- `D.TEARDOWN` (R134). -/
def execDTeardown (s : State) : Result := .next s.dictTeardown

end Sys2Proof.Machine
end

