-- ==== Sys2Proof/Machine/Engine.lean ====
section
/-! DEFINITION. The DecodeEngine's seven classes (42_decodeengine.md). Each takes its fetched value into `cur` (R153 line 1,
R151) and then follows its rule. A class whose condition does not hold is not selected (log entry 9). -/

namespace Sys2Proof.Machine

/-- Line 3 of Commit: `if nfi = 4096 then D.RESET()` (R159). -/
def State.resetIfFull (s : State) : State := if s.nfi = Config.capacity then s.dictReset else s

/-- Line 4 of Commit: `prev <- cur[11:0]` (R159, and R151 line 2). -/
def State.retainCode (s : State) : State := { s with prev := low12 s.cur }

/-- Line 2 of Commit: `Emit(D.GET(cur))` (R159, and R151 line 1). -/
def State.emitCurrent (s : State) : Result :=
  match s.dictGet (low12 s.cur) with
  | some bytes => .next (s.emit bytes)
  | none => .refused .emptySlot

/-- `Commit(entry)` (R159): append, emit, reset when full, retain the code, in this order and no other. -/
def State.commit (entry : List Byte) (s : State) : Result :=
  andThen (s.dictAppend entry) fun appended =>
    andThen appended.emitCurrent fun emitted => .next emitted.resetIfFull.retainCode

/-- Commit of a candidate entry; there is none when a lookup met an empty slot (U1). -/
def State.commitCandidate (entry : Option (List Byte)) (s : State) : Result :=
  match entry with
  | some bytes => s.commit bytes
  | none => .refused .emptySlot

/-- `E.FIRST` (R151). -/
def execEFirst (b : Byte) (s : State) : Result :=
  if s.atFirst then
    andThen (s.take (b.setWidth 13)).emitCurrent fun t => .next { t.retainCode with state := .decoding }
  else .refused .notSelected

/-- `E.FIRSTBAD` (R152): a fetched value from 256 to 4096. -/
def execEFirstBad (f : Fetched) (s : State) : Result :=
  if s.atFirst && decide (s.nfi ≤ f) && decide (f ≤ Config.eos) then
    .next ((s.take f).raise .invalidFirstCode)
  else .refused .notSelected

/-- `E.EOS` (R154): teardown, then Finished; `err` stays 0. -/
def execEEos (s : State) : Result :=
  if s.inLoop then .next { (s.take Config.eos).dictTeardown with state := .finished }
  else .refused .notSelected

/-- `E.BAD` (R155). -/
def execEBad (c : Code) (s : State) : Result :=
  if s.inLoop && decide (s.nfi < zext13 c) then .next ((s.take (zext13 c)).raise .invalidCode)
  else .refused .notSelected

/-- `E.STALE` (R156). -/
def execEStale (c : Code) (s : State) : Result :=
  if s.inLoop && decide (zext13 c ≤ s.nfi) && s.prevStale then
    .next ((s.take (zext13 c)).raise .stalePreviousCode)
  else .refused .notSelected

/-- `E.KWKWK` (R158). -/
def execEKwkwk (c : Code) (s : State) : Result :=
  if s.inLoop && decide (zext13 c = s.nfi) && !s.prevStale then
    (s.take (zext13 c)).commitCandidate s.kwkwkEntry
  else .refused .notSelected

/-- `E.KNOWN` (R157). -/
def execEKnown (c : Code) (s : State) : Result :=
  if s.inLoop && decide (zext13 c < s.nfi) && !s.prevStale then
    (s.take (zext13 c)).commitCandidate (s.knownEntry c)
  else .refused .notSelected

end Sys2Proof.Machine
end

