-- ==== Sys2Proof/Machine/Reader.lean ====
section
/-! DEFINITION. The BitCodeReader's six fetch forms (40_bitcodereader.md). The operands are the fields of the bytes that the
fetch read at `pos` (`State.fetch`). Each returns its value in `ret` and writes nothing but `pos`, `lo_pend`, `lo_nib` and
`trunc` (R110). -/

namespace Sys2Proof.Machine

/-- `NC.PAIR0` (R111). -/
def execNcPair0 (a : Code) (n : Nibble) (s : State) : Result :=
  if s.selPair0 then .next (((s.advance 2).keepNibble n).returning (.fetched (zext13 a)))
  else .refused .notSelected

/-- `NC.PAIR1` (R112): the returned code is `(lo_nib << 8) | b2`. -/
def execNcPair1 (b : Byte) (s : State) : Result :=
  if s.selPair1 then .next (((s.advance 1).clearPend).returning (.fetched (zext13 (codeB s.loNib b))))
  else .refused .notSelected

/-- `NC.TAIL` (R113): the padding is neither stored nor checked (R89). -/
def execNcTail (a : Code) (_pad : Nibble) (s : State) : Result :=
  if s.selTail then .next ((s.advance 2).returning (.fetched (zext13 a)))
  else .refused .notSelected

/-- `NC.EOS0` (R114). -/
def execNcEos0 (s : State) : Result :=
  if s.selEos0 then .next (s.returning (.fetched Config.eos))
  else .refused .notSelected

/-- `NC.EOS1` (R115): the dangling byte is consumed and ignored. -/
def execNcEos1 (_x : Byte) (s : State) : Result :=
  if s.selEos1 then .next (((s.advance 1).setTrunc).returning (.fetched Config.eos))
  else .refused .notSelected

/-- `NC.EOSN` (R116). -/
def execNcEosn (s : State) : Result :=
  if s.selEosn then .next (s.setTrunc.returning (.fetched Config.eos))
  else .refused .notSelected

end Sys2Proof.Machine
end

