-- ==== Sys2Proof/Machine/Session.lean ====
section
/-! DEFINITION. The session: one code handled from fetch to class (42_decodeengine.md R165), `S.START`
(43_session_interface.md R180), and what the machine does next (R150, R161, R185, R240). -/

namespace Sys2Proof.Machine

/-- Run a fetched form. Only the reader's rows are fetched (R98). -/
def runFetched (i : Instr) (s : State) : Result :=
  match i with
  | .ncPair0 a n => execNcPair0 a n s
  | .ncPair1 b => execNcPair1 b s
  | .ncTail a p => execNcTail a p s
  | .ncEos0 => execNcEos0 s
  | .ncEos1 x => execNcEos1 x s
  | .ncEosn => execNcEosn s
  | .eFirst _ | .eFirstBad _ | .eEos | .eBad _ | .eStale _ | .eKwkwk _ | .eKnown _
  | .dInit | .dGet _ | .dAppend _ | .dReset | .dTeardown | .sStart _ => .refused .notSelected

/-- `nextCode()` (R110): one fetch, its value left in `ret`. While the host has not supplied a byte, nothing changes. -/
def State.nextCode (s : State) : Result :=
  match s.fetch with
  | .ok i => runFetched i s
  | .error _ => .next s

/-- Run a class. Only the engine's rows are classes (R98). -/
def runClass (i : Instr) (s : State) : Result :=
  match i with
  | .eFirst b => execEFirst b s
  | .eFirstBad f => execEFirstBad f s
  | .eEos => execEEos s
  | .eBad c => execEBad c s
  | .eStale c => execEStale c s
  | .eKwkwk c => execEKwkwk c s
  | .eKnown c => execEKnown c s
  | .ncPair0 _ _ | .ncPair1 _ | .ncTail _ _ | .ncEos0 | .ncEos1 _ | .ncEosn
  | .dInit | .dGet _ | .dAppend _ | .dReset | .dTeardown | .sStart _ => .refused .notSelected

/-- The value the last fetch returned. -/
def State.fetchedValue (s : State) : Option Fetched :=
  match s.ret with
  | .fetched f => some f
  | .none | .entry _ | .index _ => none

/-- Classify the value just fetched and run its class (R153, R165). -/
def handleFetched (s : State) : Result :=
  match s.fetchedValue with
  | some f =>
    match s.classify f with
    | .ok i => runClass i s
    | .error _ => .refused .noClass
  | none => .refused .noClass

/-- Handle one code whose fetch form is `i`: fetch, then exactly one class (R165). -/
def runCode (i : Instr) (s : State) : Result := andThen (runFetched i s) handleFetched

/-- `StepDecoding` (R165). While the host has not supplied a byte the form consumes, the core waits and nothing changes
(R193 W2; log entry 7). -/
def stepDecoding (s : State) : Result :=
  match s.fetch with
  | .ok i => runCode i s
  | .error _ => .next s

/-- `S.START(L)` (R180): ignored while Decoding (R180, D20); else a fresh session and its first code, one atomic step. While
the host has not supplied the first code's bytes nothing changes (log entry 7). -/
def execSStart (len : Nat) (s : State) : Result :=
  if s.state = .decoding then .next s
  else
    match (s.beginSession len).fetch with
    | .ok i => runCode i (s.beginSession len)
    | .error _ => .next s

/-- The next code-level step: hardware reset overrides everything (R240); a session in progress handles one code; an idle core
starts a session when `start` is 1 and else waits (R150, R161, R185, R193 W1). -/
def nextStep (s : State) : Result :=
  if s.rst then .next s.hardReset
  else if s.state = .decoding then stepDecoding s
  else if s.start then execSStart s.inLen s
  else .next s

/-- The host supplies an input of the `nbits / 8` bytes of `w` and, if no session runs, commands a start with that length. In a
running session the bytes are the rest of the input and no nibble is pending (log entry 17). -/
def State.placeWord (s : State) (nbits w : Nat) : State :=
  let bytes := bytesOf (nbits / 8) w
  if s.state = .decoding then
    { s with
      rst := false, loPend := false
      input := Memory.load s.input s.pos bytes, len := s.pos + bytes.length }
  else
    { s with
      rst := false, start := true
      input := Memory.ofBytes bytes, inLen := bytes.length }

end Sys2Proof.Machine
end

