-- ==== Sys2Proof/Machine/Dispatch.lean ====
section
/-! DEFINITION. One arm per row of spec/opcode_table.json. -/

namespace Sys2Proof.Machine

def exec (i : Instr) (s : State) : Host.Outcome State Fault Refusal :=
  match i with
  -- BitCodeReader
  | .ncPair0 a n => Sys2Proof.Machine.execNcPair0 a n s
  | .ncPair1 b => Sys2Proof.Machine.execNcPair1 b s
  | .ncTail a p => Sys2Proof.Machine.execNcTail a p s
  | .ncEos0 => Sys2Proof.Machine.execNcEos0 s
  | .ncEos1 x => Sys2Proof.Machine.execNcEos1 x s
  | .ncEosn => Sys2Proof.Machine.execNcEosn s
  -- DecodeEngine
  | .eFirst b => Sys2Proof.Machine.execEFirst b s
  | .eFirstBad f => Sys2Proof.Machine.execEFirstBad f s
  | .eEos => Sys2Proof.Machine.execEEos s
  | .eBad c => Sys2Proof.Machine.execEBad c s
  | .eStale c => Sys2Proof.Machine.execEStale c s
  | .eKwkwk c => Sys2Proof.Machine.execEKwkwk c s
  | .eKnown c => Sys2Proof.Machine.execEKnown c s
  -- Dictionary
  | .dInit => Sys2Proof.Machine.execDInit s
  | .dGet c => Sys2Proof.Machine.execDGet c s
  | .dAppend entry => Sys2Proof.Machine.execDAppend entry s
  | .dReset => Sys2Proof.Machine.execDReset s
  | .dTeardown => Sys2Proof.Machine.execDTeardown s
  -- Session
  | .sStart len => Sys2Proof.Machine.execSStart len s

end Sys2Proof.Machine
end

