-- ==== Sys2Proof/Machine/Step.lean ====
section
/-! DEFINITION. The step: one code-level step of the core under the host's level inputs (00_scope.md R6). What it does is
`nextStep`; that it runs the decoded rows through `exec` is a statement. -/

namespace Sys2Proof.Machine

def step (s : State) : Host.Outcome State Fault Refusal := nextStep s

/-- See `State.placeWord` (log entry 17). -/
def State.withFetchWord (s : State) (nbits w : Nat) : State := s.placeWord nbits w

end Sys2Proof.Machine
end

