-- ==== Sys2Proof/Machine/Port.lean ====
section
/-! DEFINITION. The port level (43_session_interface.md section 2): the core behind its clocked ports, one cycle at a time. It is
one machine the refinement rule R189 admits: it overlaps no fetch with an emission. How many cycles it takes for anything is free
but finite (R184): each of its actions brings, in the input `pace`, the number of cycles before its next one (log entry 18). The
code level does not use this file. -/

namespace Sys2Proof.Machine

/-- The input ports in one clock cycle (R183), and how long the implementation takes next (R184). -/
structure PortIn where
  rst : Bool
  start : Bool
  inLen : Nat
  inValid : Bool
  inData : Byte
  outReady : Bool
  /-- The implementation's own pace, free (R184, D24): read in a cycle in which it acts, the number of further cycles it works
  before it can act again. -/
  pace : Nat
  deriving DecidableEq, Repr

/-- The output ports in one clock cycle (R183). -/
structure PortOut where
  inReady : Bool
  outValid : Bool
  /-- Meaningful while `outValid` is 1 (R187). -/
  outData : Option Byte
  busy : Bool
  state : BitVec 2
  err : BitVec 3
  trunc : Bool
  done : Bool
  fail : Bool
  deriving DecidableEq, Repr

structure PortState where
  /-- The registers, with `IN` and `OUT` as the code level has them; its own input levels are not used here. While an emission is
  being handed over they stand as the fetch of the step left them (R186). -/
  core : State
  /-- The state in which the step in progress ends, while its emission is being handed to the sink: the registers take its values
  when the last byte has been transferred (R65 e, R189 d). -/
  landing : Option State
  /-- R37 (d), R185 -/
  busy : Bool
  /-- The bytes of the current form transferred so far (R186). -/
  taken : List Byte
  /-- The bytes emitted and not yet transferred (R187). -/
  pending : List Byte
  /-- The bytes transferred to the sink in this session (R187). -/
  sent : List Byte
  /-- The cycles the implementation still works before it can act (R184). -/
  delay : Nat
  deriving DecidableEq, Repr

/-- The code-level state the core stands for: the one in which the step in progress ends. -/
def PortState.code (q : PortState) : State :=
  match q.landing with
  | some t => t
  | none => q.core

/-- The bytes the current form consumes (R94, R186). -/
def PortState.need (q : PortState) : Nat := formBytes q.core.loPend q.core.rem

/-- `in_ready` (R186, R240). -/
def PortState.inReady (q : PortState) (p : PortIn) : Bool :=
  !p.rst && q.busy && decide (q.delay = 0) && q.pending.isEmpty && decide (q.taken.length < q.need)

/-- `out_valid` (R187, R240). -/
def PortState.outValid (q : PortState) (p : PortIn) : Bool :=
  !p.rst && q.busy && decide (q.delay = 0) && !q.pending.isEmpty

/-- The output ports (R183, R188). -/
def PortState.outputs (q : PortState) (p : PortIn) : PortOut where
  inReady := q.inReady p
  outValid := q.outValid p
  outData := q.pending.head?
  busy := q.busy
  state := q.core.state.bits
  err := q.core.err.bits
  trunc := q.core.trunc
  done := q.core.done
  fail := q.core.fail

/-- A cycle with `rst` = 1 (R240, R241): registers reset, what the sink has stays, what it has not accepted is withdrawn. -/
def PortState.reset (q : PortState) : PortState where
  core := { q.code.hardReset with output := q.sent }
  landing := none
  busy := false
  taken := []
  pending := []
  sent := q.sent
  delay := 0

/-- A start command is accepted (R185): lines 1 to 4 of R180, `busy` <- 1. -/
def PortState.accept (len pace : Nat) (q : PortState) : PortState where
  core := q.code.beginSession len
  landing := none
  busy := true
  taken := []
  pending := []
  sent := []
  delay := pace

/-- A step ends: the registers take the values of its last state. `busy` falls when that is Finished or Failed (R185). -/
def PortState.land (t : State) (q : PortState) : PortState :=
  { q with core := t, landing := none, busy := !t.ended }

/-- A byte of the current form is transferred in (R186). -/
def PortState.take (b : Byte) (pace : Nat) (q : PortState) : PortState :=
  { q with taken := q.taken ++ [b], delay := pace }

/-- A byte of the emission is transferred out (R187); with the last one the step ends (R65 e). -/
def PortState.send (b : Byte) (rest : List Byte) (pace : Nat) (q : PortState) : PortState :=
  let q' := { q with pending := rest, sent := q.sent ++ [b], delay := pace }
  match rest with
  | [] => q'.land q.code
  | _ :: _ => q'

/-- A step whose fetch left `u` and whose class ends in `t`: without an emission it ends at once; with one the registers show what
the fetch left until the sink has all of it (R186, R65 e). -/
def PortState.handled (u t : State) (pace : Nat) (q : PortState) : PortState :=
  match t.output.drop q.core.output.length with
  | [] => { q with taken := [], delay := pace }.land t
  | b :: rest => { q with core := u, landing := some t, taken := [], pending := b :: rest, delay := pace }

/-- All bytes of the form have arrived: the form is run and its value handled (R186, R165). -/
def PortState.complete (pace : Nat) (q : PortState) : PortState :=
  match decodeFetch q.core.loPend q.core.rem q.taken with
  | .error _ => q
  | .ok i =>
    match runFetched i q.core with
    | .fault _ | .refused _ => q
    | .next u =>
      match handleFetched u with
      | .fault _ | .refused _ => q
      | .next t => q.handled u t pace

/-- One clock cycle (R183 to R188). A busy core works on, or acts, or waits for the host's byte or for the sink (R193). -/
def PortState.cycle (p : PortIn) (q : PortState) : PortState :=
  if p.rst then q.reset
  else if !q.busy then (if p.start then q.accept p.inLen p.pace else q)
  else
    match q.delay with
    | n + 1 => { q with delay := n }
    | 0 =>
      match q.pending with
      | b :: rest => if p.outReady then q.send b rest p.pace else q
      | [] =>
        if q.taken.length < q.need then (if p.inValid then q.take p.inData p.pace else q)
        else q.complete p.pace

/-- Cycles in order. -/
def PortState.cycles (q : PortState) : List PortIn → PortState
  | [] => q
  | p :: rest => (q.cycle p).cycles rest

end Sys2Proof.Machine
end

