-- ==== Sys2Proof/Safety.lean ====
section
/-! DEFINITION. What counts as a safe state: the invariants of spec/10_state.md R32 to R34 and R40, the host's duty to supply
the input (R190 H1), and the port level's own invariant. -/

namespace Sys2Proof

open Machine

/-- When a fetch form is chosen (R94). No other row is. -/
def FormSelected (loPend : Bool) (rem : Nat) : Instr → Prop
  | .ncPair0 _ _ => loPend = false ∧ 3 ≤ rem
  | .ncPair1 _ => loPend = true ∧ 1 ≤ rem
  | .ncTail _ _ => loPend = false ∧ rem = 2
  | .ncEos0 => loPend = false ∧ rem = 0
  | .ncEos1 _ => loPend = false ∧ rem = 1
  | .ncEosn => loPend = true ∧ rem = 0
  | .eFirst _ | .eFirstBad _ | .eEos | .eBad _ | .eStale _ | .eKwkwk _ | .eKnown _ => False
  | .dInit | .dGet _ | .dAppend _ | .dReset | .dTeardown | .sStart _ => False

/-- When a class is chosen (the conditions of R87 and of the opcode table). No other row is. -/
def ClassSelected (s : State) : Instr → Prop
  | .eFirst _ => s.state = .start ∧ s.nfi = Config.firstFree
  | .eFirstBad f => s.state = .start ∧ s.nfi = Config.firstFree ∧ s.nfi ≤ f ∧ f ≤ Config.eos
  | .eEos => s.state = .decoding
  | .eBad c => s.state = .decoding ∧ s.nfi < zext13 c
  | .eStale c => s.state = .decoding ∧ zext13 c ≤ s.nfi ∧ s.nfi ≤ zext13 s.prev
  | .eKwkwk c => s.state = .decoding ∧ zext13 c = s.nfi ∧ zext13 s.prev < s.nfi
  | .eKnown c => s.state = .decoding ∧ zext13 c < s.nfi ∧ zext13 s.prev < s.nfi
  | .ncPair0 _ _ | .ncPair1 _ | .ncTail _ _ | .ncEos0 | .ncEos1 _ | .ncEosn => False
  | .dInit | .dGet _ | .dAppend _ | .dReset | .dTeardown | .sStart _ => False

/-- The row is one of the reader's (`NC.*`). -/
def IsFetchForm : Instr → Bool
  | .ncPair0 _ _ | .ncPair1 _ | .ncTail _ _ | .ncEos0 | .ncEos1 _ | .ncEosn => true
  | .eFirst _ | .eFirstBad _ | .eEos | .eBad _ | .eStale _ | .eKwkwk _ | .eKnown _ => false
  | .dInit | .dGet _ | .dAppend _ | .dReset | .dTeardown | .sStart _ => false

/-- The row is one of the Dictionary's (`D.*`). -/
def IsDictOp : Instr → Bool
  | .dInit | .dGet _ | .dAppend _ | .dReset | .dTeardown => true
  | .ncPair0 _ _ | .ncPair1 _ | .ncTail _ _ | .ncEos0 | .ncEos1 _ | .ncEosn => false
  | .eFirst _ | .eFirstBad _ | .eEos | .eBad _ | .eStale _ | .eKwkwk _ | .eKnown _ | .sStart _ => false

/-- The row is a class that ends the session: `E.EOS` and the three that raise an error (R154, R217). -/
def IsEndingClass : Instr → Bool
  | .eFirstBad _ | .eEos | .eBad _ | .eStale _ => true
  | .eFirst _ | .eKwkwk _ | .eKnown _ => false
  | .ncPair0 _ _ | .ncPair1 _ | .ncTail _ _ | .ncEos0 | .ncEos1 _ | .ncEosn => false
  | .dInit | .dGet _ | .dAppend _ | .dReset | .dTeardown | .sStart _ => false

/-- The row is a class that emits an entry: `E.FIRST`, `E.KWKWK`, `E.KNOWN` (R151, R159). -/
def IsEmittingClass : Instr → Bool
  | .eFirst _ | .eKwkwk _ | .eKnown _ => true
  | .eFirstBad _ | .eEos | .eBad _ | .eStale _ => false
  | .ncPair0 _ _ | .ncPair1 _ | .ncTail _ _ | .ncEos0 | .ncEos1 _ | .ncEosn => false
  | .dInit | .dGet _ | .dAppend _ | .dReset | .dTeardown | .sStart _ => false

/-- The row is `S.START`. -/
def IsStart : Instr → Bool
  | .sStart _ => true
  | .ncPair0 _ _ | .ncPair1 _ | .ncTail _ _ | .ncEos0 | .ncEos1 _ | .ncEosn => false
  | .eFirst _ | .eFirstBad _ | .eEos | .eBad _ | .eStale _ | .eKwkwk _ | .eKnown _ => false
  | .dInit | .dGet _ | .dAppend _ | .dReset | .dTeardown => false

/-- The values that `n` successive `nextCode` calls return, and the state after them. -/
def readValues : Nat → State → List Fetched × State
  | 0, s => ([], s)
  | n + 1, s =>
    match s.nextCode with
    | .next t =>
      match t.fetchedValue with
      | some f => (f :: (readValues n t).1, (readValues n t).2)
      | none => ([], t)
    | .fault _ | .refused _ => ([], s)

/-- The table of literals, as a list indexed by the code (R130). -/
def literalTable : List (List Byte) := (List.range 256).map fun i => [BitVec.ofNat 8 i]

/-- What the codes after the first decode to, on a table kept as a list of entries indexed by the code (R162, R153 to R159). The
length of the list is the next free index. A list of codes leaves no input over, so `trunc` is 0 (R23). -/
def decodeLater (table : List (List Byte)) (prev : Nat) : List Code → Observation
  | [] => ⟨.finished, .none, false, []⟩
  | c :: rest =>
    if table.length < c.toNat then ⟨.failed, .invalidCode, false, []⟩
    else if table.length ≤ prev then ⟨.failed, .stalePreviousCode, false, []⟩
    else
      let old := table.getD prev []
      let named := if c.toNat = table.length then old else table.getD c.toNat []
      let longer := table ++ [old ++ named.take 1]
      let later := decodeLater (if longer.length = 4096 then literalTable else longer) c.toNat rest
      { later with output := longer.getD c.toNat [] ++ later.output }

/-- What a list of codes decodes to (R162): the concatenation of the entries named by the codes before the first failing one, with
the end of the session (R182). -/
def decodeCodes : List Code → Observation
  | [] => ⟨.failed, .invalidFirstCode, false, []⟩
  | c :: rest =>
    if 256 ≤ c.toNat then ⟨.failed, .invalidFirstCode, false, []⟩
    else
      let later := decodeLater literalTable c.toNat rest
      { later with output := BitVec.ofNat 8 c.toNat :: later.output }

/-- DI1 (R33): every slot below `nfi` is populated, every other is empty. -/
def DictFilled (s : State) : Prop := ∀ k, (Cells.read s.dict k).isSome = true ↔ k < s.nfi.toNat

/-- DI2 (R34): whenever `nfi` >= 256, slot `i` below 256 holds `[i]`. -/
def LiteralsHeld (s : State) : Prop :=
  256 ≤ s.nfi.toNat → ∀ k < 256, Cells.read s.dict k = some [BitVec.ofNat 8 k]

/-- R40 item 9 (and R32 for the learned slots): slot `k` >= 256 holds 2 to `k - 254` bytes. -/
def EntriesBounded (s : State) : Prop :=
  ∀ k entry, 256 ≤ k → Cells.read s.dict k = some entry → 2 ≤ entry.length ∧ entry.length ≤ k - 254

/-- The invariant of every state at a step boundary (R40), with the canonical forms of the model's cells. -/
structure StateInv (s : State) : Prop where
  /-- R40 item 1 -/
  posLe : s.pos ≤ s.len
  /-- R40 item 2 -/
  pendPos : s.loPend = true → s.pos < s.len ∧ s.pos % 3 = 2
  /-- R40 item 2 -/
  noPendPos : s.loPend = false → s.pos % 3 = 0 ∨ s.pos = s.len
  /-- R40 item 3, R30 -/
  liveCursor : s.state = .decoding → 256 ≤ s.nfi.toNat ∧ s.nfi.toNat ≤ 4095
  /-- R40 item 4; in Start between steps there is no dictionary either (R180, R39) -/
  noDict : s.state ≠ .decoding → s.nfi = 0#13 ∧ s.dict = []
  /-- R33, R40 item 3 -/
  filled : DictFilled s
  /-- R34, R40 item 3 -/
  literals : LiteralsHeld s
  /-- R40 item 9 -/
  bounded : EntriesBounded s
  /-- R40 item 5 -/
  finishedAt : s.state = .finished → s.pos = s.len ∧ s.loPend = false ∧ s.cur = Config.eos ∧ s.err = .none
  /-- R40 item 6 -/
  errFailed : s.err ≠ .none ↔ s.state = .failed
  /-- R40 item 6 -/
  errProduced : s.err ≠ .incompleteStream
  /-- R40 item 7 -/
  truncAt : s.trunc = true → s.len % 3 = 1 ∧ s.pos = s.len
  /-- R40 item 8 -/
  staleAt : s.state = .decoding → s.nfi ≤ zext13 s.prev → s.nfi = Config.firstFree
  /-- R28 -/
  curRange : s.cur ≤ Config.eos
  /-- Canonical form of the dictionary. -/
  dictWf : Cells.wf s.dict
  /-- Canonical form of the input space. -/
  inputWf : Memory.wf s.input

/-- The host has supplied every byte of an input of `len` bytes (R190 H1). -/
def Supplied (m : Memory) (len : Nat) : Prop := ∀ a < len, (Cells.read m a).isSome = true

/-- A byte the host presents while the core asks for one is the next byte of `IN` (R186, R190 H1). -/
def HonestCycle (p : PortIn) (q : PortState) : Prop :=
  q.inReady p = true → p.inValid = true →
    Cells.read q.core.input (q.core.pos + q.taken.length) = some p.inData

/-- What holds of the port level between cycles (R185 to R189). -/
structure PortInv (q : PortState) : Prop where
  /-- The bytes transferred, then those still to transfer, are `OUT` (R189 b). -/
  outSplit : q.sent ++ q.pending = q.code.output
  /-- No byte beyond the current form is taken (R186). -/
  takenLe : q.taken.length ≤ q.need
  /-- The bytes taken are those of `IN` in order (R189 a). -/
  takenIs : ∀ j < q.taken.length, q.taken[j]? = Cells.read q.core.input (q.core.pos + j)
  /-- An idle core has taken nothing it has not consumed and owes no byte; it is not Decoding (R185, R189 d). -/
  idle : q.busy = false → q.taken = [] ∧ q.pending = [] ∧ q.core.state ≠ .decoding
  /-- A busy core has not ended (R185). -/
  running : q.busy = true → q.core.ended = false
  /-- Bytes are owed only by a step in progress. -/
  settled : q.landing = none → q.pending = []
  /-- A step in progress has consumed the bytes of its form and owes bytes to the sink, and ends in the state to which the class of
  the value just fetched leads; that state has not ended the session (R65 e). -/
  landed : ∀ t, q.landing = some t →
    q.busy = true ∧ q.taken = [] ∧ q.pending ≠ [] ∧ handleFetched q.core = .next t ∧ t.ended = false

/-- The code-level state behind the ports meets the machine's invariant, or is a fresh session whose first code has not been handled
(R180 lines 1 to 4, R185). -/
structure PortLive (q : PortState) : Prop where
  machine : q.busy = false ∨ q.code.state ≠ .start → StateInv q.code
  fresh : q.busy = true → q.code.state = .start → q.code = q.code.beginSession q.code.len
  inputWf : Memory.wf q.code.input

end Sys2Proof
end

