-- ==== Sys2Proof/Certificates/Slice0/Obligations.lean ====
section
/-! DEFINITION. The statements for the provers. Each docstring names the rule of spec/ it formalises. Fetched values and codes
are given by the spec's arithmetic on numbers, not by the model's own helpers, wherever the spec gives a formula. What a rule
returns stands in `ret`, the model's own register (log entry 2); a class takes its fetched value into `cur` (log entry 3). -/

open Sys2Proof Sys2Proof.Machine

/-! ## Encoding -/

/-- Words written out from R81, R82, R83 and R87, with the instructions they stand for. -/
def Obligations.DecodedWordsMatchSpecEncodings : Prop :=
  decodeFetch false 3 [0x12#8, 0x34#8] = .ok (.ncPair0 0x123#12 0x4#4) ∧
  decodeFetch true 1 [0x56#8] = .ok (.ncPair1 0x56#8) ∧
  decodeFetch false 2 [0x00#8, 0x10#8] = .ok (.ncTail 0x001#12 0x0#4) ∧
  decodeFetch false 0 [] = .ok .ncEos0 ∧
  decodeFetch false 1 [0x41#8] = .ok (.ncEos1 0x41#8) ∧
  decodeFetch true 0 [] = .ok .ncEosn ∧
  decodeFirst 256#13 65#13 = .ok (.eFirst 0x41#8) ∧
  decodeFirst 256#13 300#13 = .ok (.eFirstBad 300#13) ∧
  decodeLoop 257#13 66#12 4096#13 = .ok .eEos ∧
  decodeLoop 256#13 65#12 257#13 = .ok (.eBad 257#12) ∧
  decodeLoop 256#13 4095#12 65#13 = .ok (.eStale 65#12) ∧
  decodeLoop 258#13 256#12 258#13 = .ok (.eKwkwk 258#12) ∧
  decodeLoop 256#13 65#12 66#13 = .ok (.eKnown 66#12)

/-- Decode and encode agree on the fetch forms (R81 to R83, R94): whatever follows in the stream, the bytes of a form decode to
it, with every operand, where its selector holds. -/
def Obligations.FetchFormsDecodeTheirEncoding : Prop :=
  ∀ (i : Instr) (loPend : Bool) (rem : Nat) (bytes rest : List Byte),
    FormSelected loPend rem i → encode i = some (.inl bytes) →
      decodeFetch loPend rem (bytes ++ rest) = .ok i

/-- Decode and encode agree on the classes (R87): the fetched value of a class is classified as it, with every operand, where its
condition holds. -/
def Obligations.ClassesDecodeTheirEncoding : Prop :=
  ∀ (s : State) (i : Instr) (f : Fetched),
    ClassSelected s i → encode i = some (.inr f) → s.classify f = .ok i

/-- Decoding a fetch form loses no bit: the bytes consumed are the encoding of what was decoded (R81 to R83, R94). -/
def Obligations.DecodedFormsReencodeToTheirBytes : Prop :=
  ∀ (i : Instr) (loPend : Bool) (rem : Nat) (bytes : List Byte),
    decodeFetch loPend rem bytes = .ok i →
      encode i = some (.inl (bytes.take (formBytes loPend rem)))

/-- The form is chosen by `lo_pend` and `rem` alone, and one is chosen for every value of the two (R94, R110). -/
def Obligations.FormChosenByPendingAndRemaining : Prop :=
  ∀ (loPend : Bool) (rem : Nat) (bytes : List Byte),
    (formBytes loPend rem ≤ bytes.length → ∃ i, decodeFetch loPend rem bytes = .ok i) ∧
    (∀ i, decodeFetch loPend rem bytes = .ok i → FormSelected loPend rem i)

/-- Reading `pack(codes)` with successive `nextCode` calls returns exactly the codes, then `EOS`, with `trunc` left as it was
(R96). -/
def Obligations.PackedCodesReadBack : Prop :=
  ∀ (codes : List Code) (s : State),
    s.pos = 0 → s.loPend = false → s.len = (pack codes).length → s.input = Memory.ofBytes (pack codes) →
      (readValues (codes.length + 1) s).1 =
        codes.map (fun c => BitVec.ofNat 13 c.toNat) ++ [BitVec.ofNat 13 4096] ∧
      (readValues (codes.length + 1) s).2.trunc = s.trunc

/-! ## BitCodeReader -/

/-- `NC.PAIR0` (R111). -/
def Obligations.Pair0ReturnsCodeAndKeepsNibble : Prop :=
  ∀ (s : State), s.loPend = false → 3 ≤ s.len - s.pos →
    (∀ (a : Code) (n : Nibble), exec (.ncPair0 a n) s =
      .next { s with
        pos := s.pos + 2, loNib := n, loPend := true, ret := .fetched (BitVec.ofNat 13 a.toNat) }) ∧
    (∀ b0 b1 : Byte, Cells.read s.input s.pos = some b0 → Cells.read s.input (s.pos + 1) = some b1 →
      s.fetch = .ok (.ncPair0 (BitVec.ofNat 12 (b0.toNat * 16 + b1.toNat / 16)) (BitVec.ofNat 4 (b1.toNat % 16))))

/-- `NC.PAIR1` (R112). -/
def Obligations.Pair1JoinsKeptNibble : Prop :=
  ∀ (s : State), s.loPend = true → 1 ≤ s.len - s.pos →
    (∀ b : Byte, exec (.ncPair1 b) s =
      .next { s with
        pos := s.pos + 1, loPend := false
        ret := .fetched (BitVec.ofNat 13 (s.loNib.toNat * 256 + b.toNat)) }) ∧
    (∀ b2 : Byte, Cells.read s.input s.pos = some b2 → s.fetch = .ok (.ncPair1 b2))

/-- `NC.TAIL` (R113): the padding, whatever it is, is not stored. -/
def Obligations.TailReturnsCodeAndIgnoresPadding : Prop :=
  ∀ (s : State), s.loPend = false → s.len - s.pos = 2 →
    (∀ (a : Code) (pad : Nibble), exec (.ncTail a pad) s =
      .next { s with pos := s.pos + 2, ret := .fetched (BitVec.ofNat 13 a.toNat) }) ∧
    (∀ b0 b1 : Byte, Cells.read s.input s.pos = some b0 → Cells.read s.input (s.pos + 1) = some b1 →
      s.fetch = .ok (.ncTail (BitVec.ofNat 12 (b0.toNat * 16 + b1.toNat / 16)) (BitVec.ofNat 4 (b1.toNat % 16))))

/-- `NC.EOS0` (R114): `EOS`, and no state changes. -/
def Obligations.CleanEndReturnsSentinel : Prop :=
  ∀ (s : State), s.loPend = false → s.len - s.pos = 0 →
    s.fetch = .ok .ncEos0 ∧ exec .ncEos0 s = .next { s with ret := .fetched 4096#13 }

/-- `NC.EOS1` (R115): the dangling byte is consumed whatever it is, `trunc` is set, `EOS` returned. -/
def Obligations.DanglingByteConsumedAndTruncSet : Prop :=
  ∀ (s : State), s.loPend = false → s.len - s.pos = 1 →
    (∀ x : Byte, exec (.ncEos1 x) s =
      .next { s with pos := s.pos + 1, trunc := true, ret := .fetched 4096#13 }) ∧
    (∀ x : Byte, Cells.read s.input s.pos = some x → s.fetch = .ok (.ncEos1 x))

/-- `NC.EOSN` (R116): `trunc` is set and `EOS` returned; nothing else changes. -/
def Obligations.PendingNibbleAtEndSetsTrunc : Prop :=
  ∀ (s : State), s.loPend = true → s.len - s.pos = 0 →
    s.fetch = .ok .ncEosn ∧
    exec .ncEosn s = .next { s with trunc := true, ret := .fetched 4096#13 }

/-- `EOS` is sticky (R117): once a fetch has returned it, the next fetch from the state it left returns it and changes nothing. -/
def Obligations.EndOfStreamSticky : Prop :=
  ∀ (s t : State) (i : Instr),
    s.fetch = .ok i → exec i s = .next t → t.ret = .fetched 4096#13 →
      ∃ j, t.fetch = .ok j ∧ exec j t = .next t

/-- `pos` moves forward by exactly the bytes of the form and never passes `len` (R25, R118). -/
def Obligations.FetchPointerNeverPassesLength : Prop :=
  ∀ (s t : State) (i : Instr) (bytes : List Byte),
    s.pos ≤ s.len → encode i = some (.inl bytes) → exec i s = .next t →
      t.pos = s.pos + bytes.length ∧ t.pos ≤ t.len

/-- What a fetch form leaves unchanged (R110 to R116): all but `pos`, `lo_pend`, `lo_nib`, `trunc`; `lo_nib` but by `NC.PAIR0`,
`lo_pend` but by `NC.PAIR0` and `NC.PAIR1`, `trunc` but by `NC.EOS1` and `NC.EOSN`; every input byte, every slot, all of the
output. The model's own `ret` takes the returned value. -/
def Obligations.FetchFormsFrame : Prop :=
  ∀ (s t : State) (i : Instr), IsFetchForm i = true → exec i s = .next t →
    t.state = s.state ∧ t.err = s.err ∧ t.len = s.len ∧ t.cur = s.cur ∧ t.prev = s.prev ∧ t.nfi = s.nfi ∧
    t.output = s.output ∧ t.rst = s.rst ∧ t.start = s.start ∧ t.inLen = s.inLen ∧
    (∀ k, Cells.read t.dict k = Cells.read s.dict k) ∧
    (∀ a, Cells.read t.input a = Cells.read s.input a) ∧
    (t.loNib = s.loNib ∨ ∃ a, i = .ncPair0 a t.loNib) ∧
    (t.loPend = s.loPend ∨ (∃ a n, i = .ncPair0 a n) ∨ ∃ b, i = .ncPair1 b) ∧
    (t.trunc = s.trunc ∨ (∃ x, i = .ncEos1 x) ∨ i = .ncEosn)

/-! ## Dictionary -/

/-- `D.INIT` (R130). -/
def Obligations.DictInitSeedsLiterals : Prop :=
  ∀ (s : State), ∃ t, exec .dInit s = .next t ∧
    (∀ k < 256, Cells.read t.dict k = some [BitVec.ofNat 8 k]) ∧
    (∀ k, 256 ≤ k → Cells.read t.dict k = none) ∧
    t.nfi = 256#13 ∧ t = { s with dict := t.dict, nfi := t.nfi }

/-- `D.GET` (R131): for `c < nfi` the whole entry is returned and nothing of the machine is written. -/
def Obligations.DictGetReturnsWholeEntry : Prop :=
  ∀ (s : State) (c : Code) (entry : List Byte),
    c.toNat < s.nfi.toNat → Cells.read s.dict c.toNat = some entry →
      exec (.dGet c) s = .next { s with ret := .entry entry }

/-- Outside their domains the dictionary's lookups and appends stop by name and give no value: `D.GET` as U1 asks (log entry 10),
`D.APPEND` by the model's choice (log entry 11). -/
def Obligations.DictDomainStops : Prop :=
  (∀ (s : State) (c : Code), s.nfi.toNat ≤ c.toNat → exec (.dGet c) s = .refused .emptySlot) ∧
  (∀ (s : State) (entry : List Byte), 4096 ≤ s.nfi.toNat → exec (.dAppend entry) s = .fault .noSuchSlot) ∧
  (∀ (s : State) (entry : List Byte), s.nfi.toNat < 4096 →
    (s.nfi.toNat < 256 ∨ entry.length < 2 ∨ 3841 < entry.length) →
      exec (.dAppend entry) s = .refused .appendOutsideDomain)

/-- `D.APPEND` (R132). -/
def Obligations.DictAppendStoresAtCursor : Prop :=
  ∀ (s : State) (entry : List Byte),
    256 ≤ s.nfi.toNat → s.nfi.toNat ≤ 4095 → 2 ≤ entry.length → entry.length ≤ 3841 →
      ∃ t, exec (.dAppend entry) s = .next t ∧
        Cells.read t.dict s.nfi.toNat = some entry ∧
        (∀ k, k ≠ s.nfi.toNat → Cells.read t.dict k = Cells.read s.dict k) ∧
        t.nfi.toNat = s.nfi.toNat + 1 ∧
        t = { s with dict := t.dict, nfi := t.nfi, ret := .index (BitVec.ofNat 12 s.nfi.toNat) }

/-- `D.RESET` (R133), from every state: that it also runs with `nfi` below 4096, where the engine does not invoke it, is the model's
choice (log entry 12). -/
def Obligations.DictResetKeepsLiteralSlots : Prop :=
  ∀ (s : State), ∃ t, exec .dReset s = .next t ∧
    (∀ k < 256, Cells.read t.dict k = Cells.read s.dict k) ∧
    (∀ k, 256 ≤ k → Cells.read t.dict k = none) ∧
    t.nfi = 256#13 ∧ t = { s with dict := t.dict, nfi := t.nfi }

/-- `D.TEARDOWN` (R134), which is idempotent. -/
def Obligations.DictTeardownEmptiesAll : Prop :=
  ∀ (s : State), ∃ t, exec .dTeardown s = .next t ∧
    (∀ k, Cells.read t.dict k = none) ∧ t.nfi = 0#13 ∧
    t = { s with dict := t.dict, nfi := t.nfi } ∧ exec .dTeardown t = .next t

/-- Each dictionary operation preserves DI1 and DI2 (R135), `D.RESET` from the full table it is invoked on; `D.APPEND`, `D.RESET` and
`D.GET` write no slot below 256. -/
def Obligations.DictOpsKeepFilledAndLiterals : Prop :=
  ∀ (s t : State) (i : Instr), IsDictOp i = true → DictFilled s → LiteralsHeld s →
    (i = .dReset → s.nfi = 4096#13) → exec i s = .next t →
      DictFilled t ∧ LiteralsHeld t ∧
      (i ≠ .dInit → i ≠ .dTeardown → ∀ k < 256, Cells.read t.dict k = Cells.read s.dict k)

/-- What a dictionary operation leaves unchanged (R130 to R134): all but `dict` and `nfi`, and the model's own `ret`; `D.GET` writes
neither. -/
def Obligations.DictOpsFrame : Prop :=
  ∀ (s t : State) (i : Instr), IsDictOp i = true → exec i s = .next t →
    t = { s with dict := t.dict, nfi := t.nfi, ret := t.ret } ∧
    (∀ a, Cells.read t.input a = Cells.read s.input a) ∧
    (∀ c, i = .dGet c → t.dict = s.dict ∧ t.nfi = s.nfi) ∧
    (∀ entry, i = .dAppend entry → ∀ k, k ≠ s.nfi.toNat → Cells.read t.dict k = Cells.read s.dict k)

/-- The lifetime of an entry (R136): every row but the two that seed a dictionary leaves a populated slot as it is, or a reset empties
it and it is a learned one, or a teardown empties them all. -/
def Obligations.EntryUnchangedWhileItLives : Prop :=
  ∀ (s t : State) (i : Instr) (k : Nat) (entry : List Byte),
    i ≠ .dInit → IsStart i = false → DictFilled s → exec i s = .next t →
      Cells.read s.dict k = some entry →
        Cells.read t.dict k = some entry ∨
        (256 ≤ k ∧ t.nfi = 256#13 ∧ Cells.read t.dict k = none) ∨
        (t.nfi = 0#13 ∧ t.dict = [])

/-- No row but `D.INIT` and `S.START` writes a slot below 256, short of the teardown that ends a session (R34). -/
def Obligations.LiteralSlotsNeverWritten : Prop :=
  ∀ (s t : State) (i : Instr),
    i ≠ .dInit → IsStart i = false → 256 ≤ s.nfi.toNat → exec i s = .next t →
      (t.nfi = 0#13 ∧ t.dict = []) ∨ ∀ k < 256, Cells.read t.dict k = Cells.read s.dict k

/-! ## DecodeEngine -/

/-- `E.FIRST` (R151). -/
def Obligations.FirstLiteralEmitted : Prop :=
  ∀ (s : State) (b : Byte),
    s.state = .start → s.nfi = 256#13 → LiteralsHeld s →
      exec (.eFirst b) s =
        .next { s with
          cur := BitVec.ofNat 13 b.toNat, prev := BitVec.ofNat 12 b.toNat
          output := s.output ++ [b], state := .decoding }

/-- `E.FIRSTBAD` (R152, with R217): `EOS` or a first code from 256 up fails with `InvalidFirstCode`. -/
def Obligations.FirstBadRaisesInvalidFirstCode : Prop :=
  ∀ (s : State) (f : Fetched),
    s.state = .start → s.nfi = 256#13 → 256 ≤ f.toNat → f.toNat ≤ 4096 →
      exec (.eFirstBad f) s =
        .next { s with cur := f, dict := [], nfi := 0#13, err := .invalidFirstCode, state := .failed }

/-- `E.EOS` (R154). -/
def Obligations.EndOfStreamFinishesSession : Prop :=
  ∀ (s : State), s.state = .decoding →
    exec .eEos s = .next { s with cur := 4096#13, dict := [], nfi := 0#13, state := .finished }

/-- `E.BAD` (R155, with R217). -/
def Obligations.BadCodeRaisesInvalidCode : Prop :=
  ∀ (s : State) (c : Code), s.state = .decoding → s.nfi.toNat < c.toNat →
    exec (.eBad c) s =
      .next { s with
        cur := BitVec.ofNat 13 c.toNat, dict := [], nfi := 0#13, err := .invalidCode, state := .failed }

/-- `E.STALE` (R156, with R217). -/
def Obligations.StalePreviousRaisesItsKind : Prop :=
  ∀ (s : State) (c : Code),
    s.state = .decoding → c.toNat ≤ s.nfi.toNat → s.nfi.toNat ≤ s.prev.toNat →
      exec (.eStale c) s =
        .next { s with
          cur := BitVec.ofNat 13 c.toNat, dict := [], nfi := 0#13, err := .stalePreviousCode, state := .failed }

/-- `E.KNOWN` with Commit (R157, R159): the entry `P ++ [first(D.GET(cur))]` is stored at `nfi`, `D.GET(cur)` is emitted, the table is
reset when it has become full, and `prev` takes the code. -/
def Obligations.KnownCodeBuildsAndEmits : Prop :=
  ∀ (s : State) (c : Code) (p rest : List Byte) (b : Byte),
    s.state = .decoding → 256 ≤ s.nfi.toNat → s.nfi.toNat ≤ 4095 →
    c.toNat < s.nfi.toNat → s.prev.toNat < s.nfi.toNat →
    Cells.read s.dict s.prev.toNat = some p → 1 ≤ p.length → p.length ≤ 3840 →
    Cells.read s.dict c.toNat = some (b :: rest) →
      ∃ t, exec (.eKnown c) s = .next t ∧
        t = { s with
          cur := BitVec.ofNat 13 c.toNat, prev := c, output := s.output ++ (b :: rest)
          dict := t.dict, nfi := t.nfi } ∧
        (s.nfi.toNat ≠ 4095 →
          t.nfi.toNat = s.nfi.toNat + 1 ∧ Cells.read t.dict s.nfi.toNat = some (p ++ [b]) ∧
          ∀ k, k ≠ s.nfi.toNat → Cells.read t.dict k = Cells.read s.dict k) ∧
        (s.nfi.toNat = 4095 →
          t.nfi = 256#13 ∧ (∀ k < 256, Cells.read t.dict k = Cells.read s.dict k) ∧
          ∀ k, 256 ≤ k → Cells.read t.dict k = none)

/-- `E.KWKWK` with Commit (R158, R159): a code equal to `nfi` resolves, after the append, to `P` followed by `P[0]`; at `nfi` = 4095 it
is emitted before the table is reset. -/
def Obligations.SelfReferentialCodeExtendsPrevious : Prop :=
  ∀ (s : State) (c : Code) (rest : List Byte) (b : Byte),
    s.state = .decoding → 256 ≤ s.nfi.toNat → c.toNat = s.nfi.toNat → s.prev.toNat < s.nfi.toNat →
    Cells.read s.dict s.prev.toNat = some (b :: rest) → rest.length ≤ 3839 →
      ∃ t, exec (.eKwkwk c) s = .next t ∧
        t = { s with
          cur := BitVec.ofNat 13 c.toNat, prev := c, output := s.output ++ (b :: rest ++ [b])
          dict := t.dict, nfi := t.nfi } ∧
        (s.nfi.toNat ≠ 4095 →
          t.nfi.toNat = s.nfi.toNat + 1 ∧ Cells.read t.dict c.toNat = some (b :: rest ++ [b]) ∧
          ∀ k, k ≠ s.nfi.toNat → Cells.read t.dict k = Cells.read s.dict k) ∧
        (s.nfi.toNat = 4095 →
          t.nfi = 256#13 ∧ (∀ k < 256, Cells.read t.dict k = Cells.read s.dict k) ∧
          ∀ k, 256 ≤ k → Cells.read t.dict k = none)

/-- A row selected by bits of the stream runs only where its selector or condition holds (R94, R87); elsewhere it is refused (the
model's choice, log entry 9). -/
def Obligations.StreamRowsRunOnlyWhereSelected : Prop :=
  ∀ (s t : State) (i : Instr), exec i s = .next t →
    (IsFetchForm i = true → FormSelected s.loPend (s.len - s.pos) i) ∧
    (IsEndingClass i = true ∨ IsEmittingClass i = true → ClassSelected s i)

/-- What a class that ends the session leaves unchanged (R154, R217): `OUT`, `pos`, `lo_pend`, `lo_nib`, `prev`, `trunc`, `len`, and
the host's input and levels; it takes its value into `cur` and leaves no dictionary. -/
def Obligations.EndingClassesFrame : Prop :=
  ∀ (s t : State) (i : Instr), IsEndingClass i = true → exec i s = .next t →
    t = { s with
      cur := t.cur, dict := [], nfi := 0#13, err := t.err, state := t.state } ∧
    (i = .eEos → t.err = s.err) ∧ (∀ a, Cells.read t.input a = Cells.read s.input a)

/-- What an emitting class leaves unchanged (R151, R157 to R159): the reader's registers, `err`, `trunc`, `len`, the host's input and
levels; every output byte already there; `dict` and `nfi` for `E.FIRST`; every slot but `nfi`, except that a reset empties slots from
256 up. -/
def Obligations.EmittingClassesFrame : Prop :=
  ∀ (s t : State) (i : Instr), IsEmittingClass i = true → exec i s = .next t →
    t = { s with
      cur := t.cur, prev := t.prev, dict := t.dict, nfi := t.nfi, output := t.output, state := t.state } ∧
    (∀ a < s.output.length, t.output[a]? = s.output[a]?) ∧
    (∀ a, Cells.read t.input a = Cells.read s.input a) ∧
    (∀ b, i = .eFirst b → t.dict = s.dict ∧ t.nfi = s.nfi) ∧
    (∀ k, k ≠ s.nfi.toNat →
      Cells.read t.dict k = Cells.read s.dict k ∨ (256 ≤ k ∧ t.nfi = 256#13 ∧ Cells.read t.dict k = none))

/-! ## Session and step -/

/-- `S.START(L)` (R180), over every length: ignored while Decoding; an input of no or one byte has no first code; a first code below
256 is emitted and starts the loop; any other fails. -/
def Obligations.SessionStartHandlesFirstCode : Prop :=
  ∀ (s : State) (len : Nat),
    (s.state = .decoding → exec (.sStart len) s = .next s) ∧
    (s.state ≠ .decoding → len = 0 →
      exec (.sStart len) s =
        .next { s with
          state := .failed, err := .invalidFirstCode, trunc := false, len := 0, pos := 0
          loPend := false, loNib := 0#4, cur := 4096#13, prev := 0#12, nfi := 0#13, dict := []
          output := [], ret := .fetched 4096#13 }) ∧
    (∀ x : Byte, s.state ≠ .decoding → len = 1 → Cells.read s.input 0 = some x →
      exec (.sStart len) s =
        .next { s with
          state := .failed, err := .invalidFirstCode, trunc := true, len := 1, pos := 1
          loPend := false, loNib := 0#4, cur := 4096#13, prev := 0#12, nfi := 0#13, dict := []
          output := [], ret := .fetched 4096#13 }) ∧
    (∀ b0 b1 : Byte, s.state ≠ .decoding → 2 ≤ len →
      Cells.read s.input 0 = some b0 → Cells.read s.input 1 = some b1 →
      exec (.sStart len) s =
        .next (
          if b0.toNat * 16 + b1.toNat / 16 < 256 then
            { s with
              state := .decoding, err := .none, trunc := false, len := len, pos := 2
              loPend := decide (3 ≤ len), loNib := if 3 ≤ len then BitVec.ofNat 4 (b1.toNat % 16) else 0#4
              cur := BitVec.ofNat 13 (b0.toNat * 16 + b1.toNat / 16)
              prev := BitVec.ofNat 12 (b0.toNat * 16 + b1.toNat / 16)
              nfi := 256#13, dict := Dict.literals
              output := [BitVec.ofNat 8 (b0.toNat * 16 + b1.toNat / 16)]
              ret := .fetched (BitVec.ofNat 13 (b0.toNat * 16 + b1.toNat / 16)) }
          else
            { s with
              state := .failed, err := .invalidFirstCode, trunc := false, len := len, pos := 2
              loPend := decide (3 ≤ len), loNib := if 3 ≤ len then BitVec.ofNat 4 (b1.toNat % 16) else 0#4
              cur := BitVec.ofNat 13 (b0.toNat * 16 + b1.toNat / 16), prev := 0#12
              nfi := 0#13, dict := [], output := []
              ret := .fetched (BitVec.ofNat 13 (b0.toNat * 16 + b1.toNat / 16)) }))

/-- A session depends on nothing an earlier one left (R242): from any two states with no session running and the same host inputs,
`S.START` gives the same state. -/
def Obligations.SessionStartForgetsThePast : Prop :=
  ∀ (s s' : State) (len : Nat),
    s.state ≠ .decoding → s'.state ≠ .decoding → Supplied s.input len →
    s'.input = s.input → s'.rst = s.rst → s'.start = s.start → s'.inLen = s.inLen →
      exec (.sStart len) s' = exec (.sStart len) s

/-- A step in Decoding runs the form decoded at `pos`, then the class of the value it returned, each as `exec` does (R153, R165). -/
def Obligations.StepRunsDecodedRows : Prop :=
  ∀ (s u : State) (i j : Instr) (f : Fetched),
    s.rst = false → s.state = .decoding → s.fetch = .ok i →
    exec i s = .next u → u.ret = .fetched f → u.classify f = .ok j →
      step s = exec j u

/-- A step of an idle core with `start` at 1 runs `S.START` of `in_len`; that runs the form decoded at position 0 of the fresh session,
then the class of the value it returned, each as `exec` does (R180, R185). -/
def Obligations.StartStepRunsFirstRows : Prop :=
  ∀ (s u : State) (i j : Instr) (f : Fetched),
    s.rst = false → s.state ≠ .decoding → s.start = true →
    (s.beginSession s.inLen).fetch = .ok i → exec i (s.beginSession s.inLen) = .next u →
    u.ret = .fetched f → u.classify f = .ok j →
      step s = exec (.sStart s.inLen) s ∧ step s = exec j u

/-- The loop's tests in their order (R153). -/
def Obligations.LoopTestsInOrder : Prop :=
  ∀ (s u : State) (i : Instr) (f : Fetched),
    s.rst = false → s.state = .decoding → s.fetch = .ok i →
    exec i s = .next u → u.ret = .fetched f → f.toNat ≤ 4096 →
      step s = exec (
        if f.toNat = 4096 then .eEos
        else if s.nfi.toNat < f.toNat then .eBad (BitVec.ofNat 12 f.toNat)
        else if s.nfi.toNat ≤ s.prev.toNat then .eStale (BitVec.ofNat 12 f.toNat)
        else if f.toNat = s.nfi.toNat then .eKwkwk (BitVec.ofNat 12 f.toNat)
        else .eKnown (BitVec.ofNat 12 f.toNat)) u

/-- Hardware reset overrides everything (R240, values of R39): at the code level the host's objects and levels stay (R39). The model's
own `ret` is emptied, the model's choice (log entry 2). On the ports neither `in_ready` nor `out_valid` is asserted meanwhile, `busy`
falls, and `OUT` is what the sink has: R241 withdraws a byte not yet accepted; that the model writes this as `OUT` := the bytes
sent is its choice (log entry 18). -/
def Obligations.HardwareResetOverrides : Prop :=
  (∀ (s : State), s.rst = true →
    step s = .next { s with
      state := .start, err := .none, trunc := false, len := 0, pos := 0, loPend := false, loNib := 0#4
      cur := 0#13, prev := 0#12, nfi := 0#13, dict := [], ret := .none }) ∧
  (∀ (p : PortIn) (q : PortState), p.rst = true →
    q.inReady p = false ∧ q.outValid p = false ∧ (q.cycle p).busy = false ∧ (q.cycle p).landing = none ∧
    (q.cycle p).core = { q.code with
      state := .start, err := .none, trunc := false, len := 0, pos := 0, loPend := false, loNib := 0#4
      cur := 0#13, prev := 0#12, nfi := 0#13, dict := [], ret := .none, output := q.sent })

/-- The state right after hardware reset (R39, middle column); of the host's part only what log entries 5 and 6 choose. -/
def Obligations.ResetStateValues : Prop :=
  State.reset.state = .start ∧ State.reset.err = .none ∧ State.reset.trunc = false ∧
  State.reset.len = 0 ∧ State.reset.pos = 0 ∧ State.reset.loPend = false ∧ State.reset.loNib = 0#4 ∧
  State.reset.cur = 0#13 ∧ State.reset.prev = 0#12 ∧ State.reset.nfi = 0#13 ∧
  (∀ k, Cells.read State.reset.dict k = none) ∧ State.reset.busy = false

/-- Waiting changes no state (R161, R193 W1 and W2): an idle core without a start command, and a session for whose next form the host
has not supplied a byte. -/
def Obligations.WaitsChangeNothing : Prop :=
  (∀ (s : State), s.rst = false → s.state ≠ .decoding → s.start = false → step s = .next s) ∧
  (∀ (s : State), s.rst = false → s.state = .decoding →
    (∃ j < formBytes s.loPend (s.len - s.pos), Cells.read s.input (s.pos + j) = none) → step s = .next s)

/-- The encodings of the status outputs (R92, R93): bit 1 of `state` is "the session has ended", bit 0 then tells failure. -/
def Obligations.StatusOutputsEncoded : Prop :=
  Phase.start.bits.toNat = 0 ∧ Phase.decoding.bits.toNat = 1 ∧ Phase.finished.bits.toNat = 2 ∧
  Phase.failed.bits.toNat = 3 ∧
  ErrKind.none.bits.toNat = 0 ∧ ErrKind.incompleteStream.bits.toNat = 1 ∧
  ErrKind.invalidFirstCode.bits.toNat = 2 ∧ ErrKind.invalidCode.bits.toNat = 3 ∧
  ErrKind.stalePreviousCode.bits.toNat = 4 ∧
  ∀ (s : State), s.state.bits.getLsbD 1 = s.ended ∧ (s.ended = true → s.state.bits.getLsbD 0 = s.fail)

/-! ## The whole machine -/

/-- The invariant holds right after reset (R40). -/
def Obligations.InvariantAtReset : Prop := StateInv State.reset

/-- Every step keeps the invariant (R40, R32 to R34), from every state that meets it, whatever the host's levels. -/
def Obligations.EveryStepKeepsInvariant : Prop :=
  ∀ (s t : State), StateInv s → step s = .next t → StateInv t

/-- No run stops: from every state that meets the invariant the step answers a next state, never a fault and never a refusal. -/
def Obligations.StepNeverFaultsOrRefuses : Prop :=
  ∀ (s : State), StateInv s → ∃ t, step s = .next t

/-- Every step in Decoding either ends the session or consumes at least one input byte (R164). -/
def Obligations.DecodingStepEndsOrConsumes : Prop :=
  ∀ (s : State), StateInv s → s.rst = false → s.state = .decoding → Supplied s.input s.len →
    ∃ t, step s = .next t ∧ (t.ended = true ∨ (t.state = .decoding ∧ s.pos < t.pos ∧ t.len = s.len))

/-- Every run ends after at most `len + 2` steps (R182): the start step and at most `len + 1` more. -/
def Obligations.SessionEndsWithinBound : Prop :=
  ∀ (s : State), StateInv s → s.rst = false → s.state ≠ .decoding → s.start = true → Supplied s.input s.inLen →
    ∃ t, step s = .next t ∧ ∃ k ≤ s.inLen + 1, ∃ u, core.run k t = .next u ∧ u.ended = true

/-- A session on the bytes that carry a list of codes ends, within `len + 2` steps, with the observation (`state`, `err`, `trunc`,
`OUT`) to which the codes decode on a plain table (R162, R96, R182), and the core is Decoding after every step before the last. -/
def Obligations.SessionDecodesItsCodes : Prop :=
  ∀ (s : State) (codes : List Code),
    s.rst = false → s.state ≠ .decoding → s.start = true → s.inLen = (pack codes).length →
    s.input = Memory.ofBytes (pack codes) →
      ∃ k u, 1 ≤ k ∧ k ≤ s.inLen + 2 ∧ core.run k s = .next u ∧ u.ended = true ∧
        u.observation = decodeCodes codes ∧ u.observation.trunc = false ∧
        ∀ j, 1 ≤ j → j < k → ∃ v, core.run j s = .next v ∧ v.state = .decoding

/-- No step but one that begins a session removes a byte from `OUT` (R54): a step in Decoding, a hardware reset at the code level and
the step of an idle core without a start command only add to it. (`S.START` begins with an empty `OUT`, R180 line 2.) -/
def Obligations.OutputOnlyGrows : Prop :=
  ∀ (s t : State), s.state = .decoding ∨ s.rst = true ∨ s.start = false → step s = .next t → s.output <+: t.output

/-- Errors are precise (R218): the failing step emits nothing, keeps `prev`, and leaves no dictionary (R217). -/
def Obligations.FailingStepIsPrecise : Prop :=
  ∀ (s t : State), s.state = .decoding → step s = .next t → t.state = .failed →
    t.output = s.output ∧ t.prev = s.prev ∧ t.len = s.len ∧ t.input = s.input ∧
    t.dict = [] ∧ t.nfi = 0#13 ∧ (t.err = .invalidCode ∨ t.err = .stalePreviousCode)

/-- No row writes the input or the host's levels (R35, R67, R191). -/
def Obligations.HostInputsNeverWritten : Prop :=
  ∀ (s t : State) (i : Instr), exec i s = .next t →
    t.input = s.input ∧ t.rst = s.rst ∧ t.start = s.start ∧ t.inLen = s.inLen

/-- Who writes `len` (R24), `prev` (R29), `err` (R22) and `state` (R21). -/
def Obligations.RegistersWrittenOnlyByTheirRows : Prop :=
  ∀ (s t : State) (i : Instr), exec i s = .next t → IsStart i = false →
    t.len = s.len ∧
    (IsEmittingClass i = false → t.prev = s.prev ∧ t.output = s.output) ∧
    (IsEndingClass i = false → t.err = s.err) ∧
    (IsEndingClass i = false → IsEmittingClass i = false → t.state = s.state ∧ t.cur = s.cur)

/-! ## Port level

The machine of these statements is one that R189 admits, not the only one: that it takes no input byte and completes no form while
it owes the sink a byte is the model's choice (log entry 18). -/

/-- The port level refines the code level (R189): in one cycle the code-level state behind the registers stays as it is, or is reset
(with `OUT` cut to what the sink has, log entry 18), or begins a session, or takes exactly the code-level step of the form decoded at
`pos`. That it takes this step only when every byte emitted before has been transferred is the model's choice (log entry 18): R189
would let a core fetch while the sink still takes bytes. -/
def Obligations.PortCycleRefinesCodeStep : Prop :=
  ∀ (p : PortIn) (q : PortState), PortInv q →
    (q.cycle p).code = q.code ∨
    (p.rst = true ∧ (q.cycle p).code = { q.code.hardReset with output := q.sent }) ∨
    (p.start = true ∧ q.busy = false ∧ (q.cycle p).code = q.code.beginSession p.inLen) ∨
    (q.pending = [] ∧ q.busy = true ∧
      ∃ i u f j, q.code.fetch = .ok i ∧ exec i q.code = .next u ∧ u.ret = .fetched f ∧
        u.classify f = .ok j ∧ exec j u = .next (q.cycle p).code)

/-- Every cycle keeps the port level's invariants (R185 to R189, R40): the bytes transferred in are those of `IN` in order, the bytes
transferred out and pending are `OUT`, an idle core owes no byte; and the code-level state behind the ports meets the machine's
invariant or is a fresh session. -/
def Obligations.PortCycleKeepsInvariant : Prop :=
  ∀ (p : PortIn) (q : PortState), PortInv q → HonestCycle p q →
    PortInv (q.cycle p) ∧ (PortLive q → PortLive (q.cycle p))

/-- A port-level session, however its cycles fall, goes through states of the code-level run with the same length and input (R189): from
the acceptance on, the code-level state behind the registers is that of the fresh session or the one after some number of code-level
steps. -/
def Obligations.PortSessionFollowsCodeRun : Prop :=
  ∀ (q : PortState) (len pace : Nat) (ps : List PortIn),
    PortInv q → q.busy = false → q.core.rst = false → q.core.start = false →
    (∀ p ∈ ps, p.rst = false ∧ p.start = false) →
    (∀ n p, ps[n]? = some p → HonestCycle p ((q.accept len pace).cycles (ps.take n))) →
      ((q.accept len pace).cycles ps).code = q.core.beginSession len ∨
      ∃ k t, exec (.sStart len) q.core = .next t ∧
        core.run k t = .next ((q.accept len pace).cycles ps).code

/-- The status follows the output (R65 e, R189 d, R251): whenever a cycle changes `state`, `err` or `trunc` as the host sees them, and
whenever the registers have ended, the sink has every byte of `OUT`, and none is pending. -/
def Obligations.PortStatusAfterOutput : Prop :=
  ∀ (p : PortIn) (q : PortState), PortInv q → HonestCycle p q →
    ((q.cycle p).core.state ≠ q.core.state ∨ (q.cycle p).core.err ≠ q.core.err ∨
      (q.cycle p).core.trunc ≠ q.core.trunc ∨ (q.cycle p).core.ended = true) →
    (q.cycle p).sent = (q.cycle p).code.output ∧ (q.cycle p).pending = [] ∧ (q.cycle p).core = (q.cycle p).code

/-- The handshakes (R186, R187, R240) and the waits (R193): `in_ready` only in a session and within the input, and only with no byte
owed to the sink, which is the model's choice (log entry 18); neither `in_ready` nor `out_valid` during reset; an output byte is held
until it is taken; reset withdraws it and keeps what was sent. A cycle without reset changes nothing exactly when the core is idle
without a start command (W1), asks for a byte that is not offered (W2), or presents a byte that is not accepted (W3). -/
def Obligations.PortHandshakeRules : Prop :=
  ∀ (p : PortIn) (q : PortState), PortInv q →
    (q.inReady p = true → q.busy = true ∧ q.core.pos + q.taken.length < q.core.len ∧ q.pending = []) ∧
    (p.rst = true → q.inReady p = false ∧ q.outValid p = false ∧ (q.cycle p).pending = [] ∧ (q.cycle p).sent = q.sent) ∧
    (q.outValid p = true → p.outReady = false →
      (q.cycle p).pending = q.pending ∧ ∀ p', p'.rst = false → (q.cycle p).outValid p' = true) ∧
    (∀ b rest, q.outValid p = true → q.pending = b :: rest → p.outReady = true →
      (q.cycle p).sent = q.sent ++ [b] ∧ (q.cycle p).pending = rest) ∧
    (PortLive q → p.rst = false →
      (q.cycle p = q ↔
        (q.busy = false ∧ p.start = false) ∨
        (q.inReady p = true ∧ p.inValid = false) ∨
        (q.outValid p = true ∧ p.outReady = false)))

/-- Every session on the ports ends (R253, R193, D24) under the host's duties H2 and H3 (R190) and without a reset: if each byte the core
asks for is presented some time, and each byte it presents is accepted some time, the core becomes idle in Finished or Failed,
whatever the implementation's pace, which is finite for each action (R184, log entry 18). -/
def Obligations.PortSessionEndsUnderHostDuties : Prop :=
  ∀ (q : PortState) (cycleAt : Nat → PortIn),
    PortInv q → PortLive q → q.busy = true →
    (∀ n, (cycleAt n).rst = false) →
    (∀ n, HonestCycle (cycleAt n) (q.cycles ((List.range n).map cycleAt))) →
    (∀ n, (q.cycles ((List.range n).map cycleAt)).inReady (cycleAt n) = true → ∃ m ≥ n, (cycleAt m).inValid = true) →
    (∀ n, (q.cycles ((List.range n).map cycleAt)).outValid (cycleAt n) = true → ∃ m ≥ n, (cycleAt m).outReady = true) →
      ∃ n, (q.cycles ((List.range n).map cycleAt)).busy = false ∧
        (q.cycles ((List.range n).map cycleAt)).core.ended = true
end

