-- ==== Sys2Proof/Laws/Cells.lean ====
section
/-! SUPPORT. Reading after writing, and that every operation over cells keeps the canonical form. -/

namespace Sys2Proof.Machine

variable {α : Type}

@[simp] theorem Cells.read_nil (a : Nat) : Cells.read ([] : List (Nat × α)) a = none := rfl

@[simp] theorem Cells.read_write_same (cells : List (Nat × α)) (a : Nat) (v : α) :
    Cells.read (Cells.write cells a v) a = some v := by
  induction cells with
  | nil => simp [Cells.write, Cells.read]
  | cons cell rest ih =>
    simp only [Cells.write]
    split
    · simp [Cells.read]
    · split
      · simp [Cells.read]
      · simp [Cells.read, *]

theorem Cells.read_write_other (cells : List (Nat × α)) {a b : Nat} (v : α) (h : b ≠ a) :
    Cells.read (Cells.write cells a v) b = Cells.read cells b := by
  induction cells with
  | nil => simp [Cells.write, Cells.read, h]
  | cons cell rest ih =>
    simp only [Cells.write]
    split
    · simp [Cells.read, h]
    · split
      · next hk => subst hk; simp [Cells.read, h]
      · simp [Cells.read, ih]

theorem Cells.read_keepBelow (cells : List (Nat × α)) (n a : Nat) :
    Cells.read (Cells.keepBelow cells n) a = if a < n then Cells.read cells a else none := by
  induction cells with
  | nil => simp [Cells.keepBelow, Cells.read]
  | cons cell rest ih =>
    unfold Cells.keepBelow at ih ⊢
    by_cases hk : cell.1 < n
    · rw [List.filter_cons_of_pos (by simpa using hk)]
      simp only [Cells.read, ih]
      split <;> split <;> first | rfl | omega
    · rw [List.filter_cons_of_neg (by simpa using hk), ih]
      simp only [Cells.read]
      split <;> (try split) <;> first | rfl | omega

theorem Cells.read_ofSeq (start : Nat) (values : List α) (a : Nat) :
    Cells.read (Cells.ofSeq start values) a = if start ≤ a then values[a - start]? else none := by
  induction values generalizing start with
  | nil => simp [Cells.ofSeq]
  | cons v rest ih =>
    simp only [Cells.ofSeq, Cells.read, ih]
    by_cases h : a = start
    · simp [h]
    · by_cases h' : start ≤ a
      · rw [if_neg h, if_pos (by omega), if_pos h', show a - start = (a - (start + 1)) + 1 by omega]
        rfl
      · rw [if_neg h, if_neg (by omega), if_neg h']

/-! ## The canonical form -/

theorem Cells.wf_cons_iff (cell : Nat × α) (rest : List (Nat × α)) :
    Cells.wf (cell :: rest) ↔ (∀ c ∈ rest, cell.1 < c.1) ∧ Cells.wf rest := by
  simp [Cells.wf, List.pairwise_cons]

theorem Cells.mem_write {cells : List (Nat × α)} {a : Nat} {v : α} {c : Nat × α}
    (h : c ∈ Cells.write cells a v) : c = (a, v) ∨ c ∈ cells := by
  induction cells with
  | nil => simpa [Cells.write] using h
  | cons cell rest ih =>
    simp only [Cells.write] at h
    split at h
    · simpa using h
    · split at h
      · rcases List.mem_cons.1 h with h | h <;> simp [h]
      · rcases List.mem_cons.1 h with h | h
        · simp [h]
        · rcases ih h with h | h <;> simp [h]

theorem Cells.wf_write {cells : List (Nat × α)} (h : Cells.wf cells) (a : Nat) (v : α) :
    Cells.wf (Cells.write cells a v) := by
  induction cells with
  | nil => simp [Cells.write, Cells.wf]
  | cons cell rest ih =>
    rw [Cells.wf_cons_iff] at h
    simp only [Cells.write]
    split
    · next hlt =>
      refine (Cells.wf_cons_iff ..).2 ⟨?_, (Cells.wf_cons_iff ..).2 h⟩
      intro c hc
      rcases List.mem_cons.1 hc with rfl | hc
      · exact hlt
      · exact Nat.lt_trans hlt (h.1 c hc)
    · split
      · next heq => exact (Cells.wf_cons_iff ..).2 ⟨by simpa [heq] using h.1, h.2⟩
      · refine (Cells.wf_cons_iff ..).2 ⟨?_, ih h.2⟩
        intro c hc
        rcases Cells.mem_write hc with rfl | hc
        · show cell.1 < a; omega
        · exact h.1 c hc

theorem Cells.wf_keepBelow {cells : List (Nat × α)} (h : Cells.wf cells) (n : Nat) :
    Cells.wf (Cells.keepBelow cells n) :=
  List.Pairwise.sublist (List.filter_sublist.map Prod.fst) h

theorem Cells.le_of_mem_ofSeq {start : Nat} {values : List α} {c : Nat × α}
    (h : c ∈ Cells.ofSeq start values) : start ≤ c.1 := by
  induction values generalizing start with
  | nil => simp [Cells.ofSeq] at h
  | cons v rest ih =>
    rcases List.mem_cons.1 h with rfl | h
    · exact Nat.le_refl _
    · have := ih h; omega

theorem Cells.wf_ofSeq (start : Nat) (values : List α) : Cells.wf (Cells.ofSeq start values) := by
  induction values generalizing start with
  | nil => simp [Cells.ofSeq, Cells.wf]
  | cons v rest ih =>
    refine (Cells.wf_cons_iff ..).2 ⟨?_, ih _⟩
    intro c hc
    have := Cells.le_of_mem_ofSeq hc
    show start < c.1
    omega

theorem Memory.wf_ofBytes (bytes : List Byte) : Memory.wf (Memory.ofBytes bytes) := Cells.wf_ofSeq 0 bytes

theorem Memory.wf_load {m : Memory} (h : Memory.wf m) (a : Nat) (bytes : List Byte) :
    Memory.wf (Memory.load m a bytes) := by
  induction bytes generalizing m a with
  | nil => exact h
  | cons b rest ih => exact ih (Cells.wf_write h a b) _

/-- The reset state's cells are in canonical form. -/
theorem State.reset_wf : Memory.wf State.reset.input ∧ Cells.wf State.reset.dict := by
  simp [State.reset, Memory.wf, Cells.wf]

/-! ## Sequences and the literals -/

theorem Memory.read_ofBytes (bytes : List Byte) (a : Nat) :
    Cells.read (Memory.ofBytes bytes) a = bytes[a]? := by
  simp [Memory.ofBytes, Cells.read_ofSeq]

theorem Dict.read_literals (k : Nat) :
    Cells.read Dict.literals k = if k < 256 then some [BitVec.ofNat 8 k] else none := by
  unfold Dict.literals
  rw [Cells.read_ofSeq]
  by_cases h : k < 256 <;> simp [h]

theorem Dict.wf_literals : Cells.wf Dict.literals := Cells.wf_ofSeq _ _

@[simp] theorem Cells.readSeq_zero (cells : List (Nat × α)) (a : Nat) :
    Cells.readSeq cells a 0 = some [] := by cases a <;> rfl

theorem Cells.readSeq_one (cells : List (Nat × α)) (a : Nat) :
    Cells.readSeq cells a 1 = (Cells.read cells a).map fun v => [v] := by
  simp only [Cells.readSeq]
  cases Cells.read cells a <;> rfl

theorem Cells.readSeq_two (cells : List (Nat × α)) (a : Nat) {v w : α}
    (hv : Cells.read cells a = some v) (hw : Cells.read cells (a + 1) = some w) :
    Cells.readSeq cells a 2 = some [v, w] := by
  simp [Cells.readSeq, hv, hw]

/-- What a sequence read gives is, place by place, what stands in the cells. -/
theorem Cells.readSeq_spec {cells : List (Nat × α)} {a n : Nat} {values : List α}
    (h : Cells.readSeq cells a n = some values) :
    values.length = n ∧ ∀ j < n, Cells.read cells (a + j) = values[j]? := by
  induction n generalizing a values with
  | zero => simp at h; subst h; simp
  | succ n ih =>
    simp only [Cells.readSeq] at h
    split at h
    · next v rest hv hrest =>
      obtain rfl := Option.some.inj h
      obtain ⟨hl, hr⟩ := ih hrest
      refine ⟨by simp [hl], fun j hj => ?_⟩
      cases j with
      | zero => simpa using hv
      | succ j => simpa [Nat.add_assoc, Nat.add_comm 1 j] using hr j (by omega)
    · cases h

/-- A sequence whose values stand in the cells is read. -/
theorem Cells.readSeq_eq {cells : List (Nat × α)} {a : Nat} {values : List α}
    (h : ∀ j < values.length, Cells.read cells (a + j) = values[j]?) :
    Cells.readSeq cells a values.length = some values := by
  induction values generalizing a with
  | nil => simp
  | cons v rest ih =>
    have h0 : Cells.read cells a = some v := by simpa using h 0 (by simp)
    have hr : Cells.readSeq cells (a + 1) rest.length = some rest := by
      apply ih
      intro j hj
      simpa [Nat.add_assoc, Nat.add_comm 1 j] using h (j + 1) (by simpa using hj)
    simp [Cells.readSeq, h0, hr]

end Sys2Proof.Machine
end

