-- ==== Sys2Proof/Laws/Encoding.lean ====
section
/-! SUPPORT. The operand formulas of R84 as numbers, and that encoding and decoding a field undo each other. -/

namespace Sys2Proof

@[simp] theorem zext13_toNat (c : Code) : (zext13 c).toNat = c.toNat := by
  simp only [zext13, BitVec.toNat_setWidth]; omega

theorem zext13_eq (c : Code) : zext13 c = BitVec.ofNat 13 c.toNat := by
  apply BitVec.eq_of_toNat_eq
  simp only [zext13_toNat, BitVec.toNat_ofNat]
  omega

@[simp] theorem low12_zext13 (c : Code) : low12 (zext13 c) = c := by
  apply BitVec.eq_of_toNat_eq
  simp only [low12, BitVec.toNat_setWidth, zext13_toNat]
  omega

theorem low12_eq (f : Fetched) : low12 f = BitVec.ofNat 12 f.toNat := by
  apply BitVec.eq_of_toNat_eq
  simp [low12]

theorem zext13_low12 {f : Fetched} (h : f.toNat < 4096) : zext13 (low12 f) = f := by
  apply BitVec.eq_of_toNat_eq
  simp only [low12, zext13_toNat, BitVec.toNat_setWidth]
  omega

/-- A shift up and a bitwise or of a value that fits below it is an addition. -/
theorem shiftLeft_or_eq {w k : Nat} (x y : BitVec w) (hx : x.toNat * 2 ^ k < 2 ^ w) (hy : y.toNat < 2 ^ k) :
    ((x <<< k) ||| y).toNat = x.toNat * 2 ^ k + y.toNat := by
  rw [BitVec.toNat_or, BitVec.toNat_shiftLeft, Nat.shiftLeft_eq, Nat.mod_eq_of_lt hx, Nat.mul_comm,
    Nat.two_pow_add_eq_or_of_lt hy]

theorem codeA_toNat (b0 b1 : Byte) : (codeA b0 b1).toNat = b0.toNat * 16 + b1.toNat / 16 := by
  have h1 : ((b1.setWidth 12 : BitVec 12) >>> 4).toNat = b1.toNat / 16 := by
    rw [BitVec.toNat_ushiftRight, BitVec.toNat_setWidth, Nat.shiftRight_eq_div_pow]; omega
  have h0 : (b0.setWidth 12 : BitVec 12).toNat = b0.toNat := by
    rw [BitVec.toNat_setWidth]; omega
  unfold codeA
  rw [shiftLeft_or_eq _ _ (by rw [h0]; omega) (by rw [h1]; omega), h0, h1,
    show (2 : Nat) ^ 4 = 16 from rfl]

theorem lowNibble_toNat (b1 : Byte) : (lowNibble b1).toNat = b1.toNat % 16 := by
  have h : b1.toNat &&& 15 = b1.toNat % 16 := Nat.and_two_pow_sub_one_eq_mod b1.toNat 4
  have h' : (b1 &&& 0xF#8).toNat = b1.toNat % 16 := h
  rw [lowNibble, BitVec.toNat_setWidth, h']
  omega

theorem codeB_toNat (n : Nibble) (b2 : Byte) : (codeB n b2).toNat = n.toNat * 256 + b2.toNat := by
  have hn : (n.setWidth 12 : BitVec 12).toNat = n.toNat := by rw [BitVec.toNat_setWidth]; omega
  have hb : (b2.setWidth 12 : BitVec 12).toNat = b2.toNat := by rw [BitVec.toNat_setWidth]; omega
  unfold codeB
  rw [shiftLeft_or_eq _ _ (by rw [hn]; omega) (by rw [hb]; omega), hn, hb,
    show (2 : Nat) ^ 8 = 256 from rfl]

theorem byteHi_toNat (a : Code) : (byteHi a).toNat = a.toNat / 16 := by
  simp only [byteHi, BitVec.toNat_setWidth, BitVec.toNat_ushiftRight, Nat.shiftRight_eq_div_pow]
  omega

theorem byteLo_toNat (a : Code) (n : Nibble) : (byteLo a n).toNat = a.toNat % 16 * 16 + n.toNat := by
  have hn : (n.setWidth 8 : BitVec 8).toNat = n.toNat := by rw [BitVec.toNat_setWidth]; omega
  unfold byteLo
  rw [BitVec.toNat_or, BitVec.toNat_shiftLeft, BitVec.toNat_setWidth, hn, Nat.shiftLeft_eq]
  have h : a.toNat % 2 ^ 8 * 2 ^ 4 % 2 ^ 8 = 2 ^ 4 * (a.toNat % 16) := by omega
  rw [h, ← Nat.two_pow_add_eq_or_of_lt n.isLt]
  omega

@[simp] theorem codeA_bytes (a : Code) (n : Nibble) : codeA (byteHi a) (byteLo a n) = a := by
  apply BitVec.eq_of_toNat_eq
  rw [codeA_toNat, byteHi_toNat, byteLo_toNat]
  omega

@[simp] theorem lowNibble_byteLo (a : Code) (n : Nibble) : lowNibble (byteLo a n) = n := by
  apply BitVec.eq_of_toNat_eq
  rw [lowNibble_toNat, byteLo_toNat]
  omega

@[simp] theorem byteHi_codeA (b0 b1 : Byte) : byteHi (codeA b0 b1) = b0 := by
  apply BitVec.eq_of_toNat_eq
  rw [byteHi_toNat, codeA_toNat]
  omega

@[simp] theorem byteLo_codeA (b0 b1 : Byte) : byteLo (codeA b0 b1) (lowNibble b1) = b1 := by
  apply BitVec.eq_of_toNat_eq
  rw [byteLo_toNat, codeA_toNat, lowNibble_toNat]
  omega

/-- Code B from the two halves `pack` splits it into (R96). -/
theorem codeB_halves (b : Code) : codeB ((b >>> 8).setWidth 4) (b.setWidth 8) = b := by
  apply BitVec.eq_of_toNat_eq
  rw [codeB_toNat]
  simp only [BitVec.toNat_setWidth, BitVec.toNat_ushiftRight, Nat.shiftRight_eq_div_pow]
  omega

end Sys2Proof
end

