-- ==== Sys2Proof/Laws/Outcome.lean ====
section
/-! SUPPORT. What a chain of operations can answer. -/

namespace Sys2Proof.Machine

@[simp] theorem andThen_next (s : State) (k : State → Result) : andThen (.next s) k = k s := rfl

@[simp] theorem andThen_fault (e : Fault) (k : State → Result) : andThen (.fault e) k = .fault e := rfl

@[simp] theorem andThen_refused (e : Refusal) (k : State → Result) : andThen (.refused e) k = .refused e := rfl

/-- A chain answers a next state only through the first operation's. -/
theorem andThen_eq_next {r : Result} {k : State → Result} {t : State} (h : andThen r k = .next t) :
    ∃ s, r = .next s ∧ k s = .next t := by
  cases r with
  | next s => exact ⟨s, rfl, h⟩
  | fault e => cases h
  | refused e => cases h

/-- A guarded meaning answers a next state only where its guard holds. -/
theorem guard_eq_next {c : Bool} {r : Result} {e : Refusal} {t : State}
    (h : (if c then r else .refused e) = .next t) : c = true ∧ r = .next t := by
  cases c with
  | true => exact ⟨rfl, h⟩
  | false => cases h

/-- A guarded plain next state. -/
theorem guard_next_iff {c : Bool} {u t : State} {e : Refusal} :
    (if c then (.next u : Result) else .refused e) = .next t ↔ c = true ∧ t = u := by
  cases c with
  | true =>
    constructor
    · intro h; cases h; exact ⟨rfl, rfl⟩
    · rintro ⟨-, rfl⟩; rfl
  | false =>
    constructor
    · intro h; cases h
    · rintro ⟨h, -⟩; cases h

end Sys2Proof.Machine
end

