-- ==== Sys2Proof/Laws/State.lean ====
section
/-! SUPPORT. One lemma per field per state update, each true by `rfl`, so that no proof unfolds a record update. -/

namespace Sys2Proof.Machine

variable (s : State)

@[simp] theorem State.advance_state (n : Nat) : (s.advance n).state = s.state := rfl
@[simp] theorem State.advance_err (n : Nat) : (s.advance n).err = s.err := rfl
@[simp] theorem State.advance_trunc (n : Nat) : (s.advance n).trunc = s.trunc := rfl
@[simp] theorem State.advance_len (n : Nat) : (s.advance n).len = s.len := rfl
@[simp] theorem State.advance_pos (n : Nat) : (s.advance n).pos = s.pos + n := rfl
@[simp] theorem State.advance_loPend (n : Nat) : (s.advance n).loPend = s.loPend := rfl
@[simp] theorem State.advance_loNib (n : Nat) : (s.advance n).loNib = s.loNib := rfl
@[simp] theorem State.advance_cur (n : Nat) : (s.advance n).cur = s.cur := rfl
@[simp] theorem State.advance_prev (n : Nat) : (s.advance n).prev = s.prev := rfl
@[simp] theorem State.advance_nfi (n : Nat) : (s.advance n).nfi = s.nfi := rfl
@[simp] theorem State.advance_dict (n : Nat) : (s.advance n).dict = s.dict := rfl
@[simp] theorem State.advance_input (n : Nat) : (s.advance n).input = s.input := rfl
@[simp] theorem State.advance_output (n : Nat) : (s.advance n).output = s.output := rfl
@[simp] theorem State.advance_rst (n : Nat) : (s.advance n).rst = s.rst := rfl
@[simp] theorem State.advance_start (n : Nat) : (s.advance n).start = s.start := rfl
@[simp] theorem State.advance_inLen (n : Nat) : (s.advance n).inLen = s.inLen := rfl
@[simp] theorem State.advance_ret (n : Nat) : (s.advance n).ret = s.ret := rfl

@[simp] theorem State.emit_state (bytes : List Byte) : (s.emit bytes).state = s.state := rfl
@[simp] theorem State.emit_err (bytes : List Byte) : (s.emit bytes).err = s.err := rfl
@[simp] theorem State.emit_trunc (bytes : List Byte) : (s.emit bytes).trunc = s.trunc := rfl
@[simp] theorem State.emit_len (bytes : List Byte) : (s.emit bytes).len = s.len := rfl
@[simp] theorem State.emit_pos (bytes : List Byte) : (s.emit bytes).pos = s.pos := rfl
@[simp] theorem State.emit_loPend (bytes : List Byte) : (s.emit bytes).loPend = s.loPend := rfl
@[simp] theorem State.emit_loNib (bytes : List Byte) : (s.emit bytes).loNib = s.loNib := rfl
@[simp] theorem State.emit_cur (bytes : List Byte) : (s.emit bytes).cur = s.cur := rfl
@[simp] theorem State.emit_prev (bytes : List Byte) : (s.emit bytes).prev = s.prev := rfl
@[simp] theorem State.emit_nfi (bytes : List Byte) : (s.emit bytes).nfi = s.nfi := rfl
@[simp] theorem State.emit_dict (bytes : List Byte) : (s.emit bytes).dict = s.dict := rfl
@[simp] theorem State.emit_input (bytes : List Byte) : (s.emit bytes).input = s.input := rfl
@[simp] theorem State.emit_output (bytes : List Byte) : (s.emit bytes).output = s.output ++ bytes := rfl
@[simp] theorem State.emit_rst (bytes : List Byte) : (s.emit bytes).rst = s.rst := rfl
@[simp] theorem State.emit_start (bytes : List Byte) : (s.emit bytes).start = s.start := rfl
@[simp] theorem State.emit_inLen (bytes : List Byte) : (s.emit bytes).inLen = s.inLen := rfl
@[simp] theorem State.emit_ret (bytes : List Byte) : (s.emit bytes).ret = s.ret := rfl

@[simp] theorem State.returning_state (r : Ret) : (s.returning r).state = s.state := rfl
@[simp] theorem State.returning_err (r : Ret) : (s.returning r).err = s.err := rfl
@[simp] theorem State.returning_trunc (r : Ret) : (s.returning r).trunc = s.trunc := rfl
@[simp] theorem State.returning_len (r : Ret) : (s.returning r).len = s.len := rfl
@[simp] theorem State.returning_pos (r : Ret) : (s.returning r).pos = s.pos := rfl
@[simp] theorem State.returning_loPend (r : Ret) : (s.returning r).loPend = s.loPend := rfl
@[simp] theorem State.returning_loNib (r : Ret) : (s.returning r).loNib = s.loNib := rfl
@[simp] theorem State.returning_cur (r : Ret) : (s.returning r).cur = s.cur := rfl
@[simp] theorem State.returning_prev (r : Ret) : (s.returning r).prev = s.prev := rfl
@[simp] theorem State.returning_nfi (r : Ret) : (s.returning r).nfi = s.nfi := rfl
@[simp] theorem State.returning_dict (r : Ret) : (s.returning r).dict = s.dict := rfl
@[simp] theorem State.returning_input (r : Ret) : (s.returning r).input = s.input := rfl
@[simp] theorem State.returning_output (r : Ret) : (s.returning r).output = s.output := rfl
@[simp] theorem State.returning_rst (r : Ret) : (s.returning r).rst = s.rst := rfl
@[simp] theorem State.returning_start (r : Ret) : (s.returning r).start = s.start := rfl
@[simp] theorem State.returning_inLen (r : Ret) : (s.returning r).inLen = s.inLen := rfl
@[simp] theorem State.returning_ret (r : Ret) : (s.returning r).ret = r := rfl

@[simp] theorem State.dictInit_state : (s.dictInit).state = s.state := rfl
@[simp] theorem State.dictInit_err : (s.dictInit).err = s.err := rfl
@[simp] theorem State.dictInit_trunc : (s.dictInit).trunc = s.trunc := rfl
@[simp] theorem State.dictInit_len : (s.dictInit).len = s.len := rfl
@[simp] theorem State.dictInit_pos : (s.dictInit).pos = s.pos := rfl
@[simp] theorem State.dictInit_loPend : (s.dictInit).loPend = s.loPend := rfl
@[simp] theorem State.dictInit_loNib : (s.dictInit).loNib = s.loNib := rfl
@[simp] theorem State.dictInit_cur : (s.dictInit).cur = s.cur := rfl
@[simp] theorem State.dictInit_prev : (s.dictInit).prev = s.prev := rfl
@[simp] theorem State.dictInit_nfi : (s.dictInit).nfi = Config.firstFree := rfl
@[simp] theorem State.dictInit_dict : (s.dictInit).dict = Dict.literals := rfl
@[simp] theorem State.dictInit_input : (s.dictInit).input = s.input := rfl
@[simp] theorem State.dictInit_output : (s.dictInit).output = s.output := rfl
@[simp] theorem State.dictInit_rst : (s.dictInit).rst = s.rst := rfl
@[simp] theorem State.dictInit_start : (s.dictInit).start = s.start := rfl
@[simp] theorem State.dictInit_inLen : (s.dictInit).inLen = s.inLen := rfl
@[simp] theorem State.dictInit_ret : (s.dictInit).ret = s.ret := rfl

@[simp] theorem State.dictStore_state (entry : List Byte) : (s.dictStore entry).state = s.state := rfl
@[simp] theorem State.dictStore_err (entry : List Byte) : (s.dictStore entry).err = s.err := rfl
@[simp] theorem State.dictStore_trunc (entry : List Byte) : (s.dictStore entry).trunc = s.trunc := rfl
@[simp] theorem State.dictStore_len (entry : List Byte) : (s.dictStore entry).len = s.len := rfl
@[simp] theorem State.dictStore_pos (entry : List Byte) : (s.dictStore entry).pos = s.pos := rfl
@[simp] theorem State.dictStore_loPend (entry : List Byte) : (s.dictStore entry).loPend = s.loPend := rfl
@[simp] theorem State.dictStore_loNib (entry : List Byte) : (s.dictStore entry).loNib = s.loNib := rfl
@[simp] theorem State.dictStore_cur (entry : List Byte) : (s.dictStore entry).cur = s.cur := rfl
@[simp] theorem State.dictStore_prev (entry : List Byte) : (s.dictStore entry).prev = s.prev := rfl
@[simp] theorem State.dictStore_nfi (entry : List Byte) : (s.dictStore entry).nfi = s.nfi + 1 := rfl
@[simp] theorem State.dictStore_dict (entry : List Byte) : (s.dictStore entry).dict = Cells.write s.dict s.nfi.toNat entry := rfl
@[simp] theorem State.dictStore_input (entry : List Byte) : (s.dictStore entry).input = s.input := rfl
@[simp] theorem State.dictStore_output (entry : List Byte) : (s.dictStore entry).output = s.output := rfl
@[simp] theorem State.dictStore_rst (entry : List Byte) : (s.dictStore entry).rst = s.rst := rfl
@[simp] theorem State.dictStore_start (entry : List Byte) : (s.dictStore entry).start = s.start := rfl
@[simp] theorem State.dictStore_inLen (entry : List Byte) : (s.dictStore entry).inLen = s.inLen := rfl
@[simp] theorem State.dictStore_ret (entry : List Byte) : (s.dictStore entry).ret = s.ret := rfl

@[simp] theorem State.dictReset_state : (s.dictReset).state = s.state := rfl
@[simp] theorem State.dictReset_err : (s.dictReset).err = s.err := rfl
@[simp] theorem State.dictReset_trunc : (s.dictReset).trunc = s.trunc := rfl
@[simp] theorem State.dictReset_len : (s.dictReset).len = s.len := rfl
@[simp] theorem State.dictReset_pos : (s.dictReset).pos = s.pos := rfl
@[simp] theorem State.dictReset_loPend : (s.dictReset).loPend = s.loPend := rfl
@[simp] theorem State.dictReset_loNib : (s.dictReset).loNib = s.loNib := rfl
@[simp] theorem State.dictReset_cur : (s.dictReset).cur = s.cur := rfl
@[simp] theorem State.dictReset_prev : (s.dictReset).prev = s.prev := rfl
@[simp] theorem State.dictReset_nfi : (s.dictReset).nfi = Config.firstFree := rfl
@[simp] theorem State.dictReset_dict : (s.dictReset).dict = Cells.keepBelow s.dict Config.numLit := rfl
@[simp] theorem State.dictReset_input : (s.dictReset).input = s.input := rfl
@[simp] theorem State.dictReset_output : (s.dictReset).output = s.output := rfl
@[simp] theorem State.dictReset_rst : (s.dictReset).rst = s.rst := rfl
@[simp] theorem State.dictReset_start : (s.dictReset).start = s.start := rfl
@[simp] theorem State.dictReset_inLen : (s.dictReset).inLen = s.inLen := rfl
@[simp] theorem State.dictReset_ret : (s.dictReset).ret = s.ret := rfl

@[simp] theorem State.dictTeardown_state : (s.dictTeardown).state = s.state := rfl
@[simp] theorem State.dictTeardown_err : (s.dictTeardown).err = s.err := rfl
@[simp] theorem State.dictTeardown_trunc : (s.dictTeardown).trunc = s.trunc := rfl
@[simp] theorem State.dictTeardown_len : (s.dictTeardown).len = s.len := rfl
@[simp] theorem State.dictTeardown_pos : (s.dictTeardown).pos = s.pos := rfl
@[simp] theorem State.dictTeardown_loPend : (s.dictTeardown).loPend = s.loPend := rfl
@[simp] theorem State.dictTeardown_loNib : (s.dictTeardown).loNib = s.loNib := rfl
@[simp] theorem State.dictTeardown_cur : (s.dictTeardown).cur = s.cur := rfl
@[simp] theorem State.dictTeardown_prev : (s.dictTeardown).prev = s.prev := rfl
@[simp] theorem State.dictTeardown_nfi : (s.dictTeardown).nfi = 0#13 := rfl
@[simp] theorem State.dictTeardown_dict : (s.dictTeardown).dict = [] := rfl
@[simp] theorem State.dictTeardown_input : (s.dictTeardown).input = s.input := rfl
@[simp] theorem State.dictTeardown_output : (s.dictTeardown).output = s.output := rfl
@[simp] theorem State.dictTeardown_rst : (s.dictTeardown).rst = s.rst := rfl
@[simp] theorem State.dictTeardown_start : (s.dictTeardown).start = s.start := rfl
@[simp] theorem State.dictTeardown_inLen : (s.dictTeardown).inLen = s.inLen := rfl
@[simp] theorem State.dictTeardown_ret : (s.dictTeardown).ret = s.ret := rfl

@[simp] theorem State.raise_state (e : ErrKind) : (s.raise e).state = .failed := rfl
@[simp] theorem State.raise_err (e : ErrKind) : (s.raise e).err = e := rfl
@[simp] theorem State.raise_trunc (e : ErrKind) : (s.raise e).trunc = s.trunc := rfl
@[simp] theorem State.raise_len (e : ErrKind) : (s.raise e).len = s.len := rfl
@[simp] theorem State.raise_pos (e : ErrKind) : (s.raise e).pos = s.pos := rfl
@[simp] theorem State.raise_loPend (e : ErrKind) : (s.raise e).loPend = s.loPend := rfl
@[simp] theorem State.raise_loNib (e : ErrKind) : (s.raise e).loNib = s.loNib := rfl
@[simp] theorem State.raise_cur (e : ErrKind) : (s.raise e).cur = s.cur := rfl
@[simp] theorem State.raise_prev (e : ErrKind) : (s.raise e).prev = s.prev := rfl
@[simp] theorem State.raise_nfi (e : ErrKind) : (s.raise e).nfi = 0#13 := rfl
@[simp] theorem State.raise_dict (e : ErrKind) : (s.raise e).dict = [] := rfl
@[simp] theorem State.raise_input (e : ErrKind) : (s.raise e).input = s.input := rfl
@[simp] theorem State.raise_output (e : ErrKind) : (s.raise e).output = s.output := rfl
@[simp] theorem State.raise_rst (e : ErrKind) : (s.raise e).rst = s.rst := rfl
@[simp] theorem State.raise_start (e : ErrKind) : (s.raise e).start = s.start := rfl
@[simp] theorem State.raise_inLen (e : ErrKind) : (s.raise e).inLen = s.inLen := rfl
@[simp] theorem State.raise_ret (e : ErrKind) : (s.raise e).ret = s.ret := rfl

@[simp] theorem State.sessionInit_state (n : Nat) : (s.sessionInit n).state = .start := rfl
@[simp] theorem State.sessionInit_err (n : Nat) : (s.sessionInit n).err = .none := rfl
@[simp] theorem State.sessionInit_trunc (n : Nat) : (s.sessionInit n).trunc = false := rfl
@[simp] theorem State.sessionInit_len (n : Nat) : (s.sessionInit n).len = n := rfl
@[simp] theorem State.sessionInit_pos (n : Nat) : (s.sessionInit n).pos = 0 := rfl
@[simp] theorem State.sessionInit_loPend (n : Nat) : (s.sessionInit n).loPend = false := rfl
@[simp] theorem State.sessionInit_loNib (n : Nat) : (s.sessionInit n).loNib = 0#4 := rfl
@[simp] theorem State.sessionInit_cur (n : Nat) : (s.sessionInit n).cur = 0#13 := rfl
@[simp] theorem State.sessionInit_prev (n : Nat) : (s.sessionInit n).prev = 0#12 := rfl
@[simp] theorem State.sessionInit_nfi (n : Nat) : (s.sessionInit n).nfi = s.nfi := rfl
@[simp] theorem State.sessionInit_dict (n : Nat) : (s.sessionInit n).dict = s.dict := rfl
@[simp] theorem State.sessionInit_input (n : Nat) : (s.sessionInit n).input = s.input := rfl
@[simp] theorem State.sessionInit_output (n : Nat) : (s.sessionInit n).output = [] := rfl
@[simp] theorem State.sessionInit_rst (n : Nat) : (s.sessionInit n).rst = s.rst := rfl
@[simp] theorem State.sessionInit_start (n : Nat) : (s.sessionInit n).start = s.start := rfl
@[simp] theorem State.sessionInit_inLen (n : Nat) : (s.sessionInit n).inLen = s.inLen := rfl
@[simp] theorem State.sessionInit_ret (n : Nat) : (s.sessionInit n).ret = s.ret := rfl

@[simp] theorem State.beginSession_state (n : Nat) : (s.beginSession n).state = .start := rfl
@[simp] theorem State.beginSession_err (n : Nat) : (s.beginSession n).err = .none := rfl
@[simp] theorem State.beginSession_trunc (n : Nat) : (s.beginSession n).trunc = false := rfl
@[simp] theorem State.beginSession_len (n : Nat) : (s.beginSession n).len = n := rfl
@[simp] theorem State.beginSession_pos (n : Nat) : (s.beginSession n).pos = 0 := rfl
@[simp] theorem State.beginSession_loPend (n : Nat) : (s.beginSession n).loPend = false := rfl
@[simp] theorem State.beginSession_loNib (n : Nat) : (s.beginSession n).loNib = 0#4 := rfl
@[simp] theorem State.beginSession_cur (n : Nat) : (s.beginSession n).cur = 0#13 := rfl
@[simp] theorem State.beginSession_prev (n : Nat) : (s.beginSession n).prev = 0#12 := rfl
@[simp] theorem State.beginSession_nfi (n : Nat) : (s.beginSession n).nfi = Config.firstFree := rfl
@[simp] theorem State.beginSession_dict (n : Nat) : (s.beginSession n).dict = Dict.literals := rfl
@[simp] theorem State.beginSession_input (n : Nat) : (s.beginSession n).input = s.input := rfl
@[simp] theorem State.beginSession_output (n : Nat) : (s.beginSession n).output = [] := rfl
@[simp] theorem State.beginSession_rst (n : Nat) : (s.beginSession n).rst = s.rst := rfl
@[simp] theorem State.beginSession_start (n : Nat) : (s.beginSession n).start = s.start := rfl
@[simp] theorem State.beginSession_inLen (n : Nat) : (s.beginSession n).inLen = s.inLen := rfl
@[simp] theorem State.beginSession_ret (n : Nat) : (s.beginSession n).ret = s.ret := rfl

@[simp] theorem State.hardReset_state : (s.hardReset).state = .start := rfl
@[simp] theorem State.hardReset_err : (s.hardReset).err = .none := rfl
@[simp] theorem State.hardReset_trunc : (s.hardReset).trunc = false := rfl
@[simp] theorem State.hardReset_len : (s.hardReset).len = 0 := rfl
@[simp] theorem State.hardReset_pos : (s.hardReset).pos = 0 := rfl
@[simp] theorem State.hardReset_loPend : (s.hardReset).loPend = false := rfl
@[simp] theorem State.hardReset_loNib : (s.hardReset).loNib = 0#4 := rfl
@[simp] theorem State.hardReset_cur : (s.hardReset).cur = 0#13 := rfl
@[simp] theorem State.hardReset_prev : (s.hardReset).prev = 0#12 := rfl
@[simp] theorem State.hardReset_nfi : (s.hardReset).nfi = 0#13 := rfl
@[simp] theorem State.hardReset_dict : (s.hardReset).dict = [] := rfl
@[simp] theorem State.hardReset_input : (s.hardReset).input = s.input := rfl
@[simp] theorem State.hardReset_output : (s.hardReset).output = s.output := rfl
@[simp] theorem State.hardReset_rst : (s.hardReset).rst = s.rst := rfl
@[simp] theorem State.hardReset_start : (s.hardReset).start = s.start := rfl
@[simp] theorem State.hardReset_inLen : (s.hardReset).inLen = s.inLen := rfl
@[simp] theorem State.hardReset_ret : (s.hardReset).ret = .none := rfl

@[simp] theorem State.take_state (f : Fetched) : (s.take f).state = s.state := rfl
@[simp] theorem State.take_err (f : Fetched) : (s.take f).err = s.err := rfl
@[simp] theorem State.take_trunc (f : Fetched) : (s.take f).trunc = s.trunc := rfl
@[simp] theorem State.take_len (f : Fetched) : (s.take f).len = s.len := rfl
@[simp] theorem State.take_pos (f : Fetched) : (s.take f).pos = s.pos := rfl
@[simp] theorem State.take_loPend (f : Fetched) : (s.take f).loPend = s.loPend := rfl
@[simp] theorem State.take_loNib (f : Fetched) : (s.take f).loNib = s.loNib := rfl
@[simp] theorem State.take_cur (f : Fetched) : (s.take f).cur = f := rfl
@[simp] theorem State.take_prev (f : Fetched) : (s.take f).prev = s.prev := rfl
@[simp] theorem State.take_nfi (f : Fetched) : (s.take f).nfi = s.nfi := rfl
@[simp] theorem State.take_dict (f : Fetched) : (s.take f).dict = s.dict := rfl
@[simp] theorem State.take_input (f : Fetched) : (s.take f).input = s.input := rfl
@[simp] theorem State.take_output (f : Fetched) : (s.take f).output = s.output := rfl
@[simp] theorem State.take_rst (f : Fetched) : (s.take f).rst = s.rst := rfl
@[simp] theorem State.take_start (f : Fetched) : (s.take f).start = s.start := rfl
@[simp] theorem State.take_inLen (f : Fetched) : (s.take f).inLen = s.inLen := rfl
@[simp] theorem State.take_ret (f : Fetched) : (s.take f).ret = s.ret := rfl

@[simp] theorem State.keepNibble_state (n : Nibble) : (s.keepNibble n).state = s.state := rfl
@[simp] theorem State.keepNibble_err (n : Nibble) : (s.keepNibble n).err = s.err := rfl
@[simp] theorem State.keepNibble_trunc (n : Nibble) : (s.keepNibble n).trunc = s.trunc := rfl
@[simp] theorem State.keepNibble_len (n : Nibble) : (s.keepNibble n).len = s.len := rfl
@[simp] theorem State.keepNibble_pos (n : Nibble) : (s.keepNibble n).pos = s.pos := rfl
@[simp] theorem State.keepNibble_loPend (n : Nibble) : (s.keepNibble n).loPend = true := rfl
@[simp] theorem State.keepNibble_loNib (n : Nibble) : (s.keepNibble n).loNib = n := rfl
@[simp] theorem State.keepNibble_cur (n : Nibble) : (s.keepNibble n).cur = s.cur := rfl
@[simp] theorem State.keepNibble_prev (n : Nibble) : (s.keepNibble n).prev = s.prev := rfl
@[simp] theorem State.keepNibble_nfi (n : Nibble) : (s.keepNibble n).nfi = s.nfi := rfl
@[simp] theorem State.keepNibble_dict (n : Nibble) : (s.keepNibble n).dict = s.dict := rfl
@[simp] theorem State.keepNibble_input (n : Nibble) : (s.keepNibble n).input = s.input := rfl
@[simp] theorem State.keepNibble_output (n : Nibble) : (s.keepNibble n).output = s.output := rfl
@[simp] theorem State.keepNibble_rst (n : Nibble) : (s.keepNibble n).rst = s.rst := rfl
@[simp] theorem State.keepNibble_start (n : Nibble) : (s.keepNibble n).start = s.start := rfl
@[simp] theorem State.keepNibble_inLen (n : Nibble) : (s.keepNibble n).inLen = s.inLen := rfl
@[simp] theorem State.keepNibble_ret (n : Nibble) : (s.keepNibble n).ret = s.ret := rfl

@[simp] theorem State.clearPend_state : (s.clearPend).state = s.state := rfl
@[simp] theorem State.clearPend_err : (s.clearPend).err = s.err := rfl
@[simp] theorem State.clearPend_trunc : (s.clearPend).trunc = s.trunc := rfl
@[simp] theorem State.clearPend_len : (s.clearPend).len = s.len := rfl
@[simp] theorem State.clearPend_pos : (s.clearPend).pos = s.pos := rfl
@[simp] theorem State.clearPend_loPend : (s.clearPend).loPend = false := rfl
@[simp] theorem State.clearPend_loNib : (s.clearPend).loNib = s.loNib := rfl
@[simp] theorem State.clearPend_cur : (s.clearPend).cur = s.cur := rfl
@[simp] theorem State.clearPend_prev : (s.clearPend).prev = s.prev := rfl
@[simp] theorem State.clearPend_nfi : (s.clearPend).nfi = s.nfi := rfl
@[simp] theorem State.clearPend_dict : (s.clearPend).dict = s.dict := rfl
@[simp] theorem State.clearPend_input : (s.clearPend).input = s.input := rfl
@[simp] theorem State.clearPend_output : (s.clearPend).output = s.output := rfl
@[simp] theorem State.clearPend_rst : (s.clearPend).rst = s.rst := rfl
@[simp] theorem State.clearPend_start : (s.clearPend).start = s.start := rfl
@[simp] theorem State.clearPend_inLen : (s.clearPend).inLen = s.inLen := rfl
@[simp] theorem State.clearPend_ret : (s.clearPend).ret = s.ret := rfl

@[simp] theorem State.setTrunc_state : (s.setTrunc).state = s.state := rfl
@[simp] theorem State.setTrunc_err : (s.setTrunc).err = s.err := rfl
@[simp] theorem State.setTrunc_trunc : (s.setTrunc).trunc = true := rfl
@[simp] theorem State.setTrunc_len : (s.setTrunc).len = s.len := rfl
@[simp] theorem State.setTrunc_pos : (s.setTrunc).pos = s.pos := rfl
@[simp] theorem State.setTrunc_loPend : (s.setTrunc).loPend = s.loPend := rfl
@[simp] theorem State.setTrunc_loNib : (s.setTrunc).loNib = s.loNib := rfl
@[simp] theorem State.setTrunc_cur : (s.setTrunc).cur = s.cur := rfl
@[simp] theorem State.setTrunc_prev : (s.setTrunc).prev = s.prev := rfl
@[simp] theorem State.setTrunc_nfi : (s.setTrunc).nfi = s.nfi := rfl
@[simp] theorem State.setTrunc_dict : (s.setTrunc).dict = s.dict := rfl
@[simp] theorem State.setTrunc_input : (s.setTrunc).input = s.input := rfl
@[simp] theorem State.setTrunc_output : (s.setTrunc).output = s.output := rfl
@[simp] theorem State.setTrunc_rst : (s.setTrunc).rst = s.rst := rfl
@[simp] theorem State.setTrunc_start : (s.setTrunc).start = s.start := rfl
@[simp] theorem State.setTrunc_inLen : (s.setTrunc).inLen = s.inLen := rfl
@[simp] theorem State.setTrunc_ret : (s.setTrunc).ret = s.ret := rfl

@[simp] theorem State.retainCode_state : (s.retainCode).state = s.state := rfl
@[simp] theorem State.retainCode_err : (s.retainCode).err = s.err := rfl
@[simp] theorem State.retainCode_trunc : (s.retainCode).trunc = s.trunc := rfl
@[simp] theorem State.retainCode_len : (s.retainCode).len = s.len := rfl
@[simp] theorem State.retainCode_pos : (s.retainCode).pos = s.pos := rfl
@[simp] theorem State.retainCode_loPend : (s.retainCode).loPend = s.loPend := rfl
@[simp] theorem State.retainCode_loNib : (s.retainCode).loNib = s.loNib := rfl
@[simp] theorem State.retainCode_cur : (s.retainCode).cur = s.cur := rfl
@[simp] theorem State.retainCode_prev : (s.retainCode).prev = low12 s.cur := rfl
@[simp] theorem State.retainCode_nfi : (s.retainCode).nfi = s.nfi := rfl
@[simp] theorem State.retainCode_dict : (s.retainCode).dict = s.dict := rfl
@[simp] theorem State.retainCode_input : (s.retainCode).input = s.input := rfl
@[simp] theorem State.retainCode_output : (s.retainCode).output = s.output := rfl
@[simp] theorem State.retainCode_rst : (s.retainCode).rst = s.rst := rfl
@[simp] theorem State.retainCode_start : (s.retainCode).start = s.start := rfl
@[simp] theorem State.retainCode_inLen : (s.retainCode).inLen = s.inLen := rfl
@[simp] theorem State.retainCode_ret : (s.retainCode).ret = s.ret := rfl

theorem State.resetIfFull_of_full (h : s.nfi = Config.capacity) : s.resetIfFull = s.dictReset := if_pos h

theorem State.resetIfFull_of_room (h : s.nfi ≠ Config.capacity) : s.resetIfFull = s := if_neg h

@[simp] theorem State.resetIfFull_state : s.resetIfFull.state = s.state := by
  unfold State.resetIfFull; split <;> rfl
@[simp] theorem State.resetIfFull_err : s.resetIfFull.err = s.err := by
  unfold State.resetIfFull; split <;> rfl
@[simp] theorem State.resetIfFull_trunc : s.resetIfFull.trunc = s.trunc := by
  unfold State.resetIfFull; split <;> rfl
@[simp] theorem State.resetIfFull_len : s.resetIfFull.len = s.len := by
  unfold State.resetIfFull; split <;> rfl
@[simp] theorem State.resetIfFull_pos : s.resetIfFull.pos = s.pos := by
  unfold State.resetIfFull; split <;> rfl
@[simp] theorem State.resetIfFull_loPend : s.resetIfFull.loPend = s.loPend := by
  unfold State.resetIfFull; split <;> rfl
@[simp] theorem State.resetIfFull_loNib : s.resetIfFull.loNib = s.loNib := by
  unfold State.resetIfFull; split <;> rfl
@[simp] theorem State.resetIfFull_cur : s.resetIfFull.cur = s.cur := by
  unfold State.resetIfFull; split <;> rfl
@[simp] theorem State.resetIfFull_prev : s.resetIfFull.prev = s.prev := by
  unfold State.resetIfFull; split <;> rfl
@[simp] theorem State.resetIfFull_input : s.resetIfFull.input = s.input := by
  unfold State.resetIfFull; split <;> rfl
@[simp] theorem State.resetIfFull_output : s.resetIfFull.output = s.output := by
  unfold State.resetIfFull; split <;> rfl
@[simp] theorem State.resetIfFull_rst : s.resetIfFull.rst = s.rst := by
  unfold State.resetIfFull; split <;> rfl
@[simp] theorem State.resetIfFull_start : s.resetIfFull.start = s.start := by
  unfold State.resetIfFull; split <;> rfl
@[simp] theorem State.resetIfFull_inLen : s.resetIfFull.inLen = s.inLen := by
  unfold State.resetIfFull; split <;> rfl
@[simp] theorem State.resetIfFull_ret : s.resetIfFull.ret = s.ret := by
  unfold State.resetIfFull; split <;> rfl

end Sys2Proof.Machine
end

