-- ==== Sys2Proof/Laws/Dictionary.lean ====
section
/-! SUPPORT. What the lookup and the append can answer, and what the dictionary reads as after each operation. -/

namespace Sys2Proof.Machine

@[simp] theorem State.take_dictGet (s : State) (f : Fetched) (c : Code) : (s.take f).dictGet c = s.dictGet c := rfl

@[simp] theorem State.returning_dictGet (s : State) (r : Ret) (c : Code) :
    (s.returning r).dictGet c = s.dictGet c := rfl

theorem State.dictGet_eq {s : State} {c : Code} (h : c.toNat < s.nfi.toNat) :
    s.dictGet c = Cells.read s.dict c.toNat := by
  rw [State.dictGet, if_pos (by simpa [BitVec.lt_def] using h)]

theorem State.dictGet_eq_none {s : State} {c : Code} (h : s.nfi.toNat ≤ c.toNat) : s.dictGet c = none := by
  rw [State.dictGet, if_neg (by simpa [BitVec.lt_def] using h)]

/-- A lookup gives an entry only inside its domain, and then what the slot holds. -/
theorem State.dictGet_eq_some {s : State} {c : Code} {entry : List Byte} (h : s.dictGet c = some entry) :
    c.toNat < s.nfi.toNat ∧ Cells.read s.dict c.toNat = some entry := by
  by_cases hc : c.toNat < s.nfi.toNat
  · exact ⟨hc, State.dictGet_eq hc ▸ h⟩
  · rw [State.dictGet_eq_none (by omega)] at h; cases h

/-- An append answers a next state exactly inside its domain. -/
theorem State.dictAppend_eq_next {s t : State} {entry : List Byte} : s.dictAppend entry = .next t ↔
    (256 ≤ s.nfi.toNat ∧ s.nfi.toNat ≤ 4095 ∧ 2 ≤ entry.length ∧ entry.length ≤ 3841) ∧
      t = s.dictStore entry := by
  unfold State.dictAppend
  simp only [Config.capacity, Config.firstFree, Config.maxEntryLen, BitVec.le_def, BitVec.lt_def,
    show (4096#13).toNat = 4096 from rfl, show (256#13).toNat = 256 from rfl]
  split
  · constructor
    · intro h; cases h
    · rintro ⟨h, -⟩; omega
  · split
    · constructor
      · intro h; cases h
      · rintro ⟨h, -⟩; omega
    · constructor
      · intro h; cases h; exact ⟨by omega, rfl⟩
      · rintro ⟨-, rfl⟩; rfl

theorem State.dictStore_nfi_toNat {s : State} {entry : List Byte} (h : s.nfi.toNat ≤ 4095) :
    (s.dictStore entry).nfi.toNat = s.nfi.toNat + 1 := by
  have h1 : (1 : Fetched).toNat = 1 := rfl
  rw [State.dictStore_nfi, BitVec.toNat_add, h1]
  omega

/-- `D.GET` answers a next state exactly when the lookup gives an entry. -/
theorem execDGet_eq_next {s t : State} {c : Code} : execDGet c s = .next t ↔
    ∃ entry, s.dictGet c = some entry ∧ t = s.returning (.entry entry) := by
  unfold execDGet
  constructor
  · intro h
    split at h
    · next entry he => cases h; exact ⟨entry, he, rfl⟩
    · cases h
  · rintro ⟨entry, he, rfl⟩; rw [he]

/-- `D.APPEND` answers a next state exactly inside its domain. -/
theorem execDAppend_eq_next {s t : State} {entry : List Byte} : execDAppend entry s = .next t ↔
    (256 ≤ s.nfi.toNat ∧ s.nfi.toNat ≤ 4095 ∧ 2 ≤ entry.length ∧ entry.length ≤ 3841) ∧
      t = (s.dictStore entry).returning (.index (low12 s.nfi)) := by
  unfold execDAppend
  constructor
  · intro h
    obtain ⟨u, hu, h⟩ := andThen_eq_next h
    obtain ⟨hd, rfl⟩ := State.dictAppend_eq_next.1 hu
    exact ⟨hd, (Host.Outcome.next.inj h).symm⟩
  · rintro ⟨hd, rfl⟩
    rw [State.dictAppend_eq_next.2 ⟨hd, rfl⟩, andThen_next]

theorem State.read_dictStore_same {s : State} {entry : List Byte} :
    Cells.read (s.dictStore entry).dict s.nfi.toNat = some entry := by simp

theorem State.read_dictStore_other {s : State} {entry : List Byte} {k : Nat} (h : k ≠ s.nfi.toNat) :
    Cells.read (s.dictStore entry).dict k = Cells.read s.dict k :=
  Cells.read_write_other _ _ h

theorem State.read_dictReset {s : State} (k : Nat) :
    Cells.read s.dictReset.dict k = if k < 256 then Cells.read s.dict k else none :=
  Cells.read_keepBelow _ _ _

theorem State.read_dictInit {s : State} (k : Nat) :
    Cells.read s.dictInit.dict k = if k < 256 then some [BitVec.ofNat 8 k] else none :=
  Dict.read_literals k

end Sys2Proof.Machine
end

