-- ==== Sys2Proof/Laws/Engine.lean ====
section
/-! SUPPORT. What Commit and each class can answer. -/

namespace Sys2Proof.Machine

section

variable {s t : State}

theorem State.emitCurrent_eq_next : s.emitCurrent = .next t ↔
    ∃ bytes, s.dictGet (low12 s.cur) = some bytes ∧ t = s.emit bytes := by
  unfold State.emitCurrent
  cases s.dictGet (low12 s.cur) with
  | none => simp
  | some bytes =>
    constructor
    · intro h; cases h; exact ⟨bytes, rfl, rfl⟩
    · rintro ⟨_, h, rfl⟩; cases h; rfl

/-- Commit answers a next state exactly when the entry can be appended and the current code then has an entry. -/
theorem State.commit_eq_next {entry : List Byte} : s.commit entry = .next t ↔
    (256 ≤ s.nfi.toNat ∧ s.nfi.toNat ≤ 4095 ∧ 2 ≤ entry.length ∧ entry.length ≤ 3841) ∧
    ∃ bytes, (s.dictStore entry).dictGet (low12 s.cur) = some bytes ∧
      t = ((s.dictStore entry).emit bytes).resetIfFull.retainCode := by
  unfold State.commit
  constructor
  · intro h
    obtain ⟨u, hu, h⟩ := andThen_eq_next h
    obtain ⟨hd, rfl⟩ := State.dictAppend_eq_next.1 hu
    obtain ⟨v, hv, h⟩ := andThen_eq_next h
    obtain ⟨bytes, hb, rfl⟩ := State.emitCurrent_eq_next.1 hv
    cases h
    exact ⟨hd, bytes, hb, rfl⟩
  · rintro ⟨hd, bytes, hb, rfl⟩
    rw [State.dictAppend_eq_next.2 ⟨hd, rfl⟩, andThen_next,
      State.emitCurrent_eq_next.2 ⟨bytes, hb, rfl⟩, andThen_next]

/-- What Commit leaves in the dictionary when it does not fill the table. -/
theorem State.commit_room {entry bytes : List Byte} (h : s.nfi.toNat < 4095) :
    ((s.dictStore entry).emit bytes).resetIfFull.retainCode.nfi.toNat = s.nfi.toNat + 1 ∧
      ((s.dictStore entry).emit bytes).resetIfFull.retainCode.dict =
        Cells.write s.dict s.nfi.toNat entry := by
  have hn := State.dictStore_nfi_toNat (s := s) (entry := entry) (by omega)
  have hroom : ((s.dictStore entry).emit bytes).nfi ≠ Config.capacity := by
    intro hc
    have := congrArg BitVec.toNat hc
    simp only [State.emit_nfi, hn, show (Config.capacity).toNat = 4096 from rfl] at this
    omega
  rw [State.resetIfFull_of_room _ hroom]
  exact ⟨hn, rfl⟩

/-- What Commit leaves in the dictionary when it fills the table: the slots below 256, with the cursor at 256. -/
theorem State.commit_full {entry bytes : List Byte} (h : s.nfi.toNat = 4095) :
    ((s.dictStore entry).emit bytes).resetIfFull.retainCode.nfi = Config.firstFree ∧
      ((s.dictStore entry).emit bytes).resetIfFull.retainCode.dict =
        Cells.keepBelow (Cells.write s.dict s.nfi.toNat entry) Config.numLit := by
  have hn := State.dictStore_nfi_toNat (s := s) (entry := entry) (by omega)
  have hfull : ((s.dictStore entry).emit bytes).nfi = Config.capacity := by
    apply BitVec.eq_of_toNat_eq
    rw [State.emit_nfi, hn, h]; rfl
  rw [State.resetIfFull_of_full _ hfull]
  exact ⟨rfl, rfl⟩

/-- Every slot's content after Commit. -/
theorem State.read_commit {entry bytes : List Byte} {n : Nat} {d : Dict} (hn : s.nfi.toNat = n) (hd : s.dict = d)
    (h : n ≤ 4095) (k : Nat) :
    Cells.read ((s.dictStore entry).emit bytes).resetIfFull.retainCode.dict k =
      if n = 4095 ∧ 256 ≤ k then none else if k = n then some entry else Cells.read d k := by
  subst hn hd
  by_cases hf : s.nfi.toNat = 4095
  · rw [(State.commit_full (entry := entry) (bytes := bytes) hf).2, Cells.read_keepBelow]
    by_cases hk : k < 256
    · rw [if_pos hk, if_neg (by omega), if_neg (by omega), Cells.read_write_other _ _ (by omega)]
    · rw [if_neg hk, if_pos ⟨hf, by omega⟩]
  · rw [(State.commit_room (entry := entry) (bytes := bytes) (by omega)).2, if_neg (by omega)]
    split
    · next hk => subst hk; simp
    · next hk => exact Cells.read_write_other _ _ hk

theorem State.commitCandidate_eq_next {entry : Option (List Byte)} :
    s.commitCandidate entry = .next t ↔ ∃ bytes, entry = some bytes ∧ s.commit bytes = .next t := by
  unfold State.commitCandidate
  split <;> simp_all

theorem State.firstByte_eq_some {c : Code} {b : Byte} :
    s.firstByte c = some b ↔ ∃ rest, s.dictGet c = some (b :: rest) := by
  unfold State.firstByte
  constructor
  · intro h
    split at h
    · next b' rest hg => cases h; exact ⟨rest, hg⟩
    · cases h
  · rintro ⟨rest, h⟩; rw [h]

theorem State.knownEntry_eq_some {c : Code} {entry : List Byte} : s.knownEntry c = some entry ↔
    ∃ p b rest, s.dictGet s.prev = some p ∧ s.dictGet c = some (b :: rest) ∧ entry = p ++ [b] := by
  unfold State.knownEntry
  constructor
  · intro h
    split at h
    · next p b hp hb =>
      obtain ⟨rest, hr⟩ := State.firstByte_eq_some.1 hb
      cases h
      exact ⟨p, b, rest, hp, hr, rfl⟩
    · cases h
  · rintro ⟨p, b, rest, hp, hb, rfl⟩
    rw [hp, State.firstByte_eq_some.2 ⟨rest, hb⟩]

theorem State.kwkwkEntry_eq_some {entry : List Byte} : s.kwkwkEntry = some entry ↔
    ∃ b rest, s.dictGet s.prev = some (b :: rest) ∧ entry = b :: rest ++ [b] := by
  unfold State.kwkwkEntry
  constructor
  · intro h
    split at h
    · next p b hp hb =>
      obtain ⟨rest, hr⟩ := State.firstByte_eq_some.1 hb
      rw [hr] at hp
      cases hp; cases h
      exact ⟨b, rest, hr, rfl⟩
    · cases h
  · rintro ⟨b, rest, hb, rfl⟩
    rw [hb, State.firstByte_eq_some.2 ⟨rest, hb⟩]

/-! ## The seven classes -/

theorem State.atFirst_eq_true : s.atFirst = true ↔ s.state = .start ∧ s.nfi = Config.firstFree := by
  simp [State.atFirst]

theorem State.inLoop_eq_true : s.inLoop = true ↔ s.state = .decoding := by simp [State.inLoop]

theorem execEFirst_eq_next {b : Byte} : execEFirst b s = .next t ↔
    (s.state = .start ∧ s.nfi = Config.firstFree) ∧
    ∃ bytes, s.dictGet (low12 (b.setWidth 13)) = some bytes ∧
      t = { ((s.take (b.setWidth 13)).emit bytes).retainCode with state := .decoding } := by
  unfold execEFirst
  rw [← State.atFirst_eq_true]
  constructor
  · intro h
    obtain ⟨hc, h⟩ := guard_eq_next h
    obtain ⟨u, hu, h⟩ := andThen_eq_next h
    obtain ⟨bytes, hb, rfl⟩ := State.emitCurrent_eq_next.1 hu
    exact ⟨hc, bytes, by simpa using hb, (Host.Outcome.next.inj h).symm⟩
  · rintro ⟨hc, bytes, hb, rfl⟩
    rw [if_pos hc, State.emitCurrent_eq_next.2 ⟨bytes, by simpa using hb, rfl⟩, andThen_next]

theorem execEFirstBad_eq_next {f : Fetched} : execEFirstBad f s = .next t ↔
    ((s.state = .start ∧ s.nfi = Config.firstFree) ∧ s.nfi ≤ f ∧ f ≤ Config.eos) ∧
      t = (s.take f).raise .invalidFirstCode := by
  rw [execEFirstBad, guard_next_iff, ← State.atFirst_eq_true]
  simp [and_assoc]

theorem execEEos_eq_next : execEEos s = .next t ↔
    s.state = .decoding ∧ t = { (s.take Config.eos).dictTeardown with state := .finished } := by
  rw [execEEos, guard_next_iff, State.inLoop_eq_true]

theorem execEBad_eq_next {c : Code} : execEBad c s = .next t ↔
    (s.state = .decoding ∧ s.nfi < zext13 c) ∧ t = (s.take (zext13 c)).raise .invalidCode := by
  rw [execEBad, guard_next_iff, ← State.inLoop_eq_true]
  simp

theorem execEStale_eq_next {c : Code} : execEStale c s = .next t ↔
    (s.state = .decoding ∧ zext13 c ≤ s.nfi ∧ s.nfi ≤ zext13 s.prev) ∧
      t = (s.take (zext13 c)).raise .stalePreviousCode := by
  rw [execEStale, guard_next_iff, ← State.inLoop_eq_true]
  simp [State.prevStale, and_assoc]

theorem execEKwkwk_eq_next {c : Code} : execEKwkwk c s = .next t ↔
    (s.state = .decoding ∧ zext13 c = s.nfi ∧ zext13 s.prev < s.nfi) ∧
    ∃ b rest, s.dictGet s.prev = some (b :: rest) ∧
      (s.take (zext13 c)).commit (b :: rest ++ [b]) = .next t := by
  have hc : (s.inLoop && decide (zext13 c = s.nfi) && !s.prevStale) = true ↔
      s.state = .decoding ∧ zext13 c = s.nfi ∧ zext13 s.prev < s.nfi := by
    simp [State.inLoop, State.prevStale, and_assoc]
  rw [← hc]
  unfold execEKwkwk
  constructor
  · intro h
    obtain ⟨hc, h⟩ := guard_eq_next h
    obtain ⟨bytes, he, h⟩ := State.commitCandidate_eq_next.1 h
    obtain ⟨b, rest, hb, rfl⟩ := State.kwkwkEntry_eq_some.1 he
    exact ⟨hc, b, rest, hb, h⟩
  · rintro ⟨hc, b, rest, hb, h⟩
    rw [if_pos hc]
    exact State.commitCandidate_eq_next.2 ⟨_, State.kwkwkEntry_eq_some.2 ⟨b, rest, hb, rfl⟩, h⟩

theorem execEKnown_eq_next {c : Code} : execEKnown c s = .next t ↔
    (s.state = .decoding ∧ zext13 c < s.nfi ∧ zext13 s.prev < s.nfi) ∧
    ∃ p b rest, s.dictGet s.prev = some p ∧ s.dictGet c = some (b :: rest) ∧
      (s.take (zext13 c)).commit (p ++ [b]) = .next t := by
  have hc : (s.inLoop && decide (zext13 c < s.nfi) && !s.prevStale) = true ↔
      s.state = .decoding ∧ zext13 c < s.nfi ∧ zext13 s.prev < s.nfi := by
    simp [State.inLoop, State.prevStale, and_assoc]
  rw [← hc]
  unfold execEKnown
  constructor
  · intro h
    obtain ⟨hc, h⟩ := guard_eq_next h
    obtain ⟨bytes, he, h⟩ := State.commitCandidate_eq_next.1 h
    obtain ⟨p, b, rest, hp, hb, rfl⟩ := State.knownEntry_eq_some.1 he
    exact ⟨hc, p, b, rest, hp, hb, h⟩
  · rintro ⟨hc, p, b, rest, hp, hb, h⟩
    rw [if_pos hc]
    exact State.commitCandidate_eq_next.2 ⟨_, State.knownEntry_eq_some.2 ⟨p, b, rest, hp, hb, rfl⟩, h⟩

end

end Sys2Proof.Machine
end

