-- ==== Sys2Proof/Laws/PerInstr.lean ====
section
/-! SUPPORT. The family `EncodedWidth`: how wide the encoding of each row is, by spec/opcode_table.json
(`bytes_consumed` of a fetch form, 13 bits of a class, nothing for an operation without stream bits). -/

namespace Sys2Proof.Laws.EncodedWidth

/-- The bits the table's row spells out. -/
def rowBits : Instr → Option Nat
  | .ncPair0 _ _ => some 16
  | .ncPair1 _ => some 8
  | .ncTail _ _ => some 16
  | .ncEos0 => some 0
  | .ncEos1 _ => some 8
  | .ncEosn => some 0
  | .eFirst _ => some 13
  | .eFirstBad _ => some 13
  | .eEos => some 13
  | .eBad _ => some 13
  | .eStale _ => some 13
  | .eKwkwk _ => some 13
  | .eKnown _ => some 13
  | .dInit => none
  | .dGet _ => none
  | .dAppend _ => none
  | .dReset => none
  | .dTeardown => none
  | .sStart _ => none

/-- The bits of an encoding. -/
def bitsOf : List Byte ⊕ Fetched → Nat
  | .inl bytes => 8 * bytes.length
  | .inr _ => 13

/-- An instruction's encoding has the width of its row, and a fetch form consumes at most two bytes (R94). -/
def Statement (i : Instr) : Prop :=
  (encode i).map bitsOf = rowBits i ∧ ∀ bytes, encode i = some (.inl bytes) → bytes.length ≤ 2

theorem ncPair0 (a : Code) (n : Nibble) : Statement (.ncPair0 a n) :=
  ⟨rfl, fun _ h => by cases h; exact Nat.le_refl 2⟩

theorem ncPair1 (b : Byte) : Statement (.ncPair1 b) :=
  ⟨rfl, fun _ h => by cases h; exact Nat.le_succ 1⟩

theorem ncTail (a : Code) (p : Nibble) : Statement (.ncTail a p) :=
  ⟨rfl, fun _ h => by cases h; exact Nat.le_refl 2⟩

theorem ncEos0 : Statement .ncEos0 := ⟨rfl, fun _ h => by cases h; exact Nat.zero_le 2⟩

theorem ncEos1 (x : Byte) : Statement (.ncEos1 x) :=
  ⟨rfl, fun _ h => by cases h; exact Nat.le_succ 1⟩

theorem ncEosn : Statement .ncEosn := ⟨rfl, fun _ h => by cases h; exact Nat.zero_le 2⟩

theorem eFirst (b : Byte) : Statement (.eFirst b) := ⟨rfl, fun _ h => by cases h⟩

theorem eFirstBad (f : Fetched) : Statement (.eFirstBad f) := ⟨rfl, fun _ h => by cases h⟩

theorem eEos : Statement .eEos := ⟨rfl, fun _ h => by cases h⟩

theorem eBad (c : Code) : Statement (.eBad c) := ⟨rfl, fun _ h => by cases h⟩

theorem eStale (c : Code) : Statement (.eStale c) := ⟨rfl, fun _ h => by cases h⟩

theorem eKwkwk (c : Code) : Statement (.eKwkwk c) := ⟨rfl, fun _ h => by cases h⟩

theorem eKnown (c : Code) : Statement (.eKnown c) := ⟨rfl, fun _ h => by cases h⟩

theorem dInit : Statement .dInit := ⟨rfl, fun _ h => by cases h⟩

theorem dGet (c : Code) : Statement (.dGet c) := ⟨rfl, fun _ h => by cases h⟩

theorem dAppend (entry : List Byte) : Statement (.dAppend entry) := ⟨rfl, fun _ h => by cases h⟩

theorem dReset : Statement .dReset := ⟨rfl, fun _ h => by cases h⟩

theorem dTeardown : Statement .dTeardown := ⟨rfl, fun _ h => by cases h⟩

theorem sStart (len : Nat) : Statement (.sStart len) := ⟨rfl, fun _ h => by cases h⟩

end Sys2Proof.Laws.EncodedWidth
end

