-- ==== Sys2Proof/Laws/Reader.lean ====
section
/-! SUPPORT. What a fetch reads, and what each fetch form can answer. -/

namespace Sys2Proof.Machine

theorem formBytes_le_rem (loPend : Bool) (rem : Nat) : formBytes loPend rem ≤ rem := by
  unfold formBytes; split <;> split <;> omega

theorem formBytes_le_two (loPend : Bool) (rem : Nat) : formBytes loPend rem ≤ 2 := by
  unfold formBytes; split <;> split <;> omega

/-- A fetch reads exactly the bytes of its form, at `pos`, and decodes them. -/
theorem State.fetch_eq_ok {s : State} {i : Instr} (h : s.fetch = .ok i) :
    ∃ bytes : List Byte, bytes.length = formBytes s.loPend s.rem ∧
      (∀ j < bytes.length, Cells.read s.input (s.pos + j) = bytes[j]?) ∧
      decodeFetch s.loPend s.rem bytes = .ok i := by
  unfold State.fetch at h
  split at h
  · next hn => exact ⟨[], by simp [hn], by simp, h⟩
  · next n hn =>
    split at h
    · next bytes hb =>
      unfold State.memRead at hb
      split at hb
      · obtain ⟨hl, hr⟩ := Cells.readSeq_spec hb
        exact ⟨bytes, by omega, fun j hj => hr j (by omega), h⟩
      · cases hb
    · cases h

/-- Where the bytes of the form stand in the input, the fetch decodes them. -/
theorem State.fetch_of_bytes {s : State} {bytes : List Byte}
    (hl : bytes.length = formBytes s.loPend s.rem)
    (hr : ∀ j < bytes.length, Cells.read s.input (s.pos + j) = bytes[j]?) :
    s.fetch = decodeFetch s.loPend s.rem bytes := by
  unfold State.fetch
  split
  · next hn =>
    have : bytes = [] := List.length_eq_zero_iff.1 (by omega)
    rw [this]
  · next n hn =>
    have hle := formBytes_le_rem s.loPend s.rem
    have hp : s.pos + (n + 1) ≤ s.len := by unfold State.rem at hle hn; omega
    have hm : s.memRead s.pos (n + 1) = some bytes := by
      unfold State.memRead
      rw [if_pos ⟨rfl, hp⟩, show n + 1 = bytes.length by omega]
      exact Cells.readSeq_eq hr
    rw [hm]

/-- Where a byte of the form is missing, the fetch is rejected. -/
theorem State.fetch_of_missing {s : State} {j : Nat} (hj : j < formBytes s.loPend s.rem)
    (hm : Cells.read s.input (s.pos + j) = none) : ∃ r, s.fetch = .error r := by
  cases h : s.fetch with
  | error r => exact ⟨r, rfl⟩
  | ok i =>
    obtain ⟨bytes, hl, hr, -⟩ := State.fetch_eq_ok h
    have := hr j (by omega)
    rw [hm, List.getElem?_eq_getElem (by omega)] at this
    cases this

/-! ## The six forms -/

section

variable {s t : State}

theorem execNcPair0_eq_next {a : Code} {n : Nibble} : execNcPair0 a n s = .next t ↔
    (s.loPend = false ∧ 3 ≤ s.rem) ∧ t = ((s.advance 2).keepNibble n).returning (.fetched (zext13 a)) := by
  rw [execNcPair0, guard_next_iff]
  simp [State.selPair0]

theorem execNcPair1_eq_next {b : Byte} : execNcPair1 b s = .next t ↔
    (s.loPend = true ∧ 1 ≤ s.rem) ∧
      t = ((s.advance 1).clearPend).returning (.fetched (zext13 (codeB s.loNib b))) := by
  rw [execNcPair1, guard_next_iff]
  simp [State.selPair1]

theorem execNcTail_eq_next {a : Code} {p : Nibble} : execNcTail a p s = .next t ↔
    (s.loPend = false ∧ s.rem = 2) ∧ t = (s.advance 2).returning (.fetched (zext13 a)) := by
  rw [execNcTail, guard_next_iff]
  simp [State.selTail]

theorem execNcEos0_eq_next : execNcEos0 s = .next t ↔
    (s.loPend = false ∧ s.rem = 0) ∧ t = s.returning (.fetched Config.eos) := by
  rw [execNcEos0, guard_next_iff]
  simp [State.selEos0]

theorem execNcEos1_eq_next {x : Byte} : execNcEos1 x s = .next t ↔
    (s.loPend = false ∧ s.rem = 1) ∧ t = ((s.advance 1).setTrunc).returning (.fetched Config.eos) := by
  rw [execNcEos1, guard_next_iff]
  simp [State.selEos1]

theorem execNcEosn_eq_next : execNcEosn s = .next t ↔
    (s.loPend = true ∧ s.rem = 0) ∧ t = s.setTrunc.returning (.fetched Config.eos) := by
  rw [execNcEosn, guard_next_iff]
  simp [State.selEosn]

end

end Sys2Proof.Machine
end

