-- ==== Sys2Proof/Laws/Session.lean ====
section
/-! SUPPORT. How one code is handled: what a fetch decodes to and leaves, what a classification gives, and the cases of the step. -/

namespace Sys2Proof.Machine

/-- A fetch form is run as `exec` runs it. -/
theorem runFetched_eq_exec {i : Instr} (h : IsFetchForm i = true) (s : State) : runFetched i s = exec i s := by
  cases i <;> first | rfl | cases h

/-- A class is run as `exec` runs it. -/
theorem runClass_eq_exec {i : Instr} (h : IsEndingClass i = true ∨ IsEmittingClass i = true) (s : State) :
    runClass i s = exec i s := by
  cases i <;> first | rfl | simp [IsEndingClass, IsEmittingClass] at h

/-- The decoder gives only forms whose selector holds. -/
theorem decodeFetch_selected {loPend : Bool} {rem : Nat} {bytes : List Byte} {i : Instr}
    (h : decodeFetch loPend rem bytes = .ok i) : FormSelected loPend rem i ∧ IsFetchForm i = true := by
  unfold decodeFetch at h
  cases loPend <;> simp only [Bool.false_eq_true, ↓reduceIte] at h
  all_goals
    repeat' split at h
    all_goals first | (cases h; done) | skip
    all_goals
      cases h
      simp only [FormSelected, IsFetchForm, and_true, true_and]
      first | assumption | omega

/-- A fetched form is one of the six, with its selector. -/
theorem State.fetch_selected {s : State} {i : Instr} (h : s.fetch = .ok i) :
    FormSelected s.loPend s.rem i ∧ IsFetchForm i = true := by
  obtain ⟨bytes, -, -, hd⟩ := State.fetch_eq_ok h
  exact decodeFetch_selected hd

/-- A form whose selector holds runs and returns a value of at most 4096. -/
theorem exec_of_selected {s : State} {i : Instr} (h : FormSelected s.loPend s.rem i) :
    ∃ u f, exec i s = .next u ∧ u.ret = .fetched f ∧ f.toNat ≤ 4096 := by
  have hz : ∀ c : Code, (zext13 c).toNat ≤ 4096 := fun c => by rw [zext13_toNat]; omega
  cases i with
  | ncPair0 a n => exact ⟨_, _, execNcPair0_eq_next.2 ⟨h, rfl⟩, rfl, hz _⟩
  | ncPair1 b => exact ⟨_, _, execNcPair1_eq_next.2 ⟨h, rfl⟩, rfl, hz _⟩
  | ncTail a p => exact ⟨_, _, (execNcTail_eq_next (p := p)).2 ⟨h, rfl⟩, rfl, hz _⟩
  | ncEos0 => exact ⟨_, _, execNcEos0_eq_next.2 ⟨h, rfl⟩, rfl, Nat.le_refl _⟩
  | ncEos1 x => exact ⟨_, _, (execNcEos1_eq_next (x := x)).2 ⟨h, rfl⟩, rfl, Nat.le_refl _⟩
  | ncEosn => exact ⟨_, _, execNcEosn_eq_next.2 ⟨h, rfl⟩, rfl, Nat.le_refl _⟩
  | eFirst b => exact h.elim
  | eFirstBad f => exact h.elim
  | eEos => exact h.elim
  | eBad c => exact h.elim
  | eStale c => exact h.elim
  | eKwkwk c => exact h.elim
  | eKnown c => exact h.elim
  | dInit => exact h.elim
  | dGet c => exact h.elim
  | dAppend e => exact h.elim
  | dReset => exact h.elim
  | dTeardown => exact h.elim
  | sStart n => exact h.elim

/-- Where the host has supplied the input from `pos` on, a fetch decodes a form. -/
theorem State.fetch_of_supplied {s : State}
    (h : ∀ a, s.pos ≤ a → a < s.len → (Cells.read s.input a).isSome = true) : ∃ i, s.fetch = .ok i := by
  have hle : s.pos + formBytes s.loPend s.rem ≤ s.len ∨ formBytes s.loPend s.rem = 0 := by
    have := formBytes_le_rem s.loPend s.rem
    unfold State.rem at this ⊢
    omega
  have hb : ∀ j < formBytes s.loPend s.rem, ∃ b, Cells.read s.input (s.pos + j) = some b :=
    fun j hj => Option.isSome_iff_exists.1 (h _ (by omega) (by omega))
  obtain ⟨bytes, hl, hr⟩ : ∃ bytes : List Byte, bytes.length = formBytes s.loPend s.rem ∧
      ∀ j < bytes.length, Cells.read s.input (s.pos + j) = bytes[j]? := by
    have h2 := formBytes_le_two s.loPend s.rem
    generalize formBytes s.loPend s.rem = n at hb h2 ⊢
    match n, h2 with
    | 0, _ => exact ⟨[], rfl, fun j hj => absurd hj (Nat.not_lt_zero j)⟩
    | 1, _ =>
      obtain ⟨b, hb0⟩ := hb 0 (by omega)
      refine ⟨[b], rfl, fun j hj => ?_⟩
      obtain rfl : j = 0 := by simpa using hj
      simpa using hb0
    | 2, _ =>
      obtain ⟨b, hb0⟩ := hb 0 (by omega)
      obtain ⟨c, hb1⟩ := hb 1 (by omega)
      refine ⟨[b, c], rfl, fun j hj => ?_⟩
      match j, hj with
      | 0, _ => simpa using hb0
      | 1, _ => simpa using hb1
  rw [State.fetch_of_bytes hl hr]
  clear hr hb hle h
  generalize s.loPend = p at hl ⊢
  generalize s.rem = r at hl ⊢
  unfold formBytes at hl
  unfold decodeFetch
  cases p <;> simp only [Bool.false_eq_true, if_true, if_false] at hl ⊢
  all_goals rcases bytes with _ | ⟨b, _ | ⟨c, rest⟩⟩ <;> simp only [List.length_nil, List.length_cons] at hl
  all_goals repeat' split_ifs at hl ⊢
  all_goals first | exact ⟨_, rfl⟩ | (exfalso; omega)

/-- A classification gives one of the engine's rows. -/
theorem State.classify_isClass {s : State} {f : Fetched} {j : Instr} (h : s.classify f = .ok j) :
    IsEndingClass j = true ∨ IsEmittingClass j = true := by
  unfold State.classify decodeFirst decodeLoop at h
  repeat' split at h
  all_goals cases h
  all_goals first | exact .inl rfl | exact .inr rfl

/-- In the loop every fetched value has a class. -/
theorem State.classify_decoding {s : State} (hs : s.state = .decoding) {f : Fetched} (hf : f.toNat ≤ 4096) :
    s.classify f = .ok (
      if f = Config.eos then .eEos
      else if s.nfi < f then .eBad (low12 f)
      else if s.nfi ≤ zext13 s.prev then .eStale (low12 f)
      else if f = s.nfi then .eKwkwk (low12 f)
      else .eKnown (low12 f)) := by
  have hn : ¬ Config.eos < f := by
    simp only [Config.eos, BitVec.lt_def, show (4096#13).toNat = 4096 from rfl]; omega
  simp only [State.classify, hs, decodeLoop, hn, if_false]
  repeat' split
  all_goals rfl

/-- With a fresh dictionary every first value has a class. -/
theorem State.classify_start {s : State} (hs : s.state = .start) (hn : s.nfi = Config.firstFree) {f : Fetched}
    (hf : f.toNat ≤ 4096) :
    s.classify f = .ok (if f < s.nfi then .eFirst (f.setWidth 8) else .eFirstBad f) := by
  have hle : ¬ Config.eos < f := by
    simp only [Config.eos, BitVec.lt_def, show (4096#13).toNat = 4096 from rfl]; omega
  simp only [State.classify, hs, decodeFirst, hle, hn, if_false, ne_eq, not_true]
  split <;> rfl

theorem State.fetchedValue_eq {s : State} {f : Fetched} (h : s.ret = .fetched f) : s.fetchedValue = some f := by
  simp only [State.fetchedValue, h]

/-- Handling the value just fetched is running its class. -/
theorem handleFetched_eq {u : State} {f : Fetched} {j : Instr} (hr : u.ret = .fetched f)
    (hj : u.classify f = .ok j) : handleFetched u = exec j u := by
  simp only [handleFetched, State.fetchedValue_eq hr, hj, runClass_eq_exec (State.classify_isClass hj)]

/-- Handling one code is running its form, then its class. -/
theorem runCode_eq {s u : State} {i j : Instr} {f : Fetched} (hi : s.fetch = .ok i)
    (hu : exec i s = .next u) (hr : u.ret = .fetched f) (hj : u.classify f = .ok j) :
    runCode i s = exec j u := by
  rw [runCode, runFetched_eq_exec (State.fetch_selected hi).2, hu, andThen_next, handleFetched_eq hr hj]

/-- What handling one code can answer. -/
theorem runCode_eq_next {s t : State} {i : Instr} (hi : IsFetchForm i = true) (h : runCode i s = .next t) :
    ∃ u f j, exec i s = .next u ∧ u.ret = .fetched f ∧ u.classify f = .ok j ∧ exec j u = .next t := by
  obtain ⟨u, hu, h⟩ := andThen_eq_next h
  rw [runFetched_eq_exec hi] at hu
  unfold handleFetched at h
  split at h
  · next f hf =>
    split at h
    · next j hj =>
      refine ⟨u, f, j, hu, ?_, hj, runClass_eq_exec (State.classify_isClass hj) u ▸ h⟩
      unfold State.fetchedValue at hf
      split at hf
      · next f' hr => cases hf; exact hr
      · cases hf
      · cases hf
      · cases hf
    · cases h
  · cases h

/-- The cases of the step. -/
theorem step_cases (s : State) :
    (s.rst = true ∧ step s = .next s.hardReset) ∨
    (s.rst = false ∧ s.state = .decoding ∧ step s = stepDecoding s) ∨
    (s.rst = false ∧ s.state ≠ .decoding ∧ s.start = true ∧ step s = execSStart s.inLen s) ∨
    (s.rst = false ∧ s.state ≠ .decoding ∧ s.start = false ∧ step s = .next s) := by
  unfold step nextStep
  by_cases hr : s.rst = true
  · simp [hr]
  · by_cases hd : s.state = .decoding
    · simp [hr, hd]
    · by_cases hs : s.start = true <;> simp [hr, hd, hs]

/-- What a step in Decoding can answer: it waits, or it runs a form and a class. -/
theorem stepDecoding_eq_next {s t : State} (h : stepDecoding s = .next t) :
    t = s ∨ ∃ i u f j, s.fetch = .ok i ∧ exec i s = .next u ∧ u.ret = .fetched f ∧
      u.classify f = .ok j ∧ exec j u = .next t := by
  unfold stepDecoding at h
  split at h
  · next i hi =>
    obtain ⟨u, f, j, hu⟩ := runCode_eq_next (State.fetch_selected hi).2 h
    exact .inr ⟨i, u, f, j, hi, hu⟩
  · cases h; exact .inl rfl

/-- What a start command can answer: it is ignored or waits, or it runs a form and a class of a fresh session. -/
theorem execSStart_eq_next {s t : State} {n : Nat} (h : execSStart n s = .next t) :
    t = s ∨ (s.state ≠ .decoding ∧ ∃ i u f j, (s.beginSession n).fetch = .ok i ∧
      exec i (s.beginSession n) = .next u ∧ u.ret = .fetched f ∧
      u.classify f = .ok j ∧ exec j u = .next t) := by
  unfold execSStart at h
  split at h
  · cases h; exact .inl rfl
  · next hd =>
    split at h
    · next i hi =>
      obtain ⟨u, f, j, hu⟩ := runCode_eq_next (State.fetch_selected hi).2 h
      exact .inr ⟨hd, i, u, f, j, hi, hu⟩
    · cases h; exact .inl rfl

end Sys2Proof.Machine
end

