-- ==== Sys2Proof/Laws/Port.lean ====
section
/-! SUPPORT. The cases of a clock cycle, and what each of its actions leaves. -/

namespace Sys2Proof.Machine

/-! ## The code-level state behind the registers, and the updates -/

theorem PortState.code_of_none {q : PortState} (h : q.landing = none) : q.code = q.core := by
  unfold PortState.code; rw [h]

theorem PortState.code_of_some {q : PortState} {t : State} (h : q.landing = some t) : q.code = t := by
  unfold PortState.code; rw [h]

@[simp] theorem PortState.land_code (q : PortState) (t : State) : (q.land t).code = t := rfl

@[simp] theorem PortState.take_code (q : PortState) (b : Byte) (n : Nat) : (q.take b n).code = q.code := rfl

@[simp] theorem PortState.reset_code (q : PortState) :
    q.reset.code = { q.code.hardReset with output := q.sent } := rfl

@[simp] theorem PortState.accept_code (q : PortState) (len n : Nat) :
    (q.accept len n).code = q.code.beginSession len := rfl

/-- The transfer of an output byte leaves the code-level state. -/
@[simp] theorem PortState.send_code (q : PortState) (b : Byte) (rest : List Byte) (n : Nat) :
    (q.send b rest n).code = q.code := by cases rest <;> rfl

@[simp] theorem PortState.send_pending (q : PortState) (b : Byte) (rest : List Byte) (n : Nat) :
    (q.send b rest n).pending = rest := by cases rest <;> rfl

@[simp] theorem PortState.send_sent (q : PortState) (b : Byte) (rest : List Byte) (n : Nat) :
    (q.send b rest n).sent = q.sent ++ [b] := by cases rest <;> rfl

@[simp] theorem PortState.send_taken (q : PortState) (b : Byte) (rest : List Byte) (n : Nat) :
    (q.send b rest n).taken = q.taken := by cases rest <;> rfl

@[simp] theorem PortState.send_delay (q : PortState) (b : Byte) (rest : List Byte) (n : Nat) :
    (q.send b rest n).delay = n := by cases rest <;> rfl

/-- The last byte of an emission ends the step. -/
theorem PortState.send_last (q : PortState) (b : Byte) (n : Nat) :
    (q.send b [] n).core = q.code ∧ (q.send b [] n).landing = none ∧ (q.send b [] n).busy = !q.code.ended :=
  ⟨rfl, rfl, rfl⟩

/-- A byte of an emission that is not the last leaves the registers. -/
theorem PortState.send_more (q : PortState) (b c : Byte) (rest : List Byte) (n : Nat) :
    (q.send b (c :: rest) n).core = q.core ∧ (q.send b (c :: rest) n).landing = q.landing ∧
      (q.send b (c :: rest) n).busy = q.busy :=
  ⟨rfl, rfl, rfl⟩

/-- A handled code ends in its last state at once, or keeps it until its emission is handed over. -/
theorem PortState.handled_cases (q : PortState) (u t : State) (n : Nat) :
    (t.output.drop q.core.output.length = [] ∧
      q.handled u t n =
        { core := t, landing := none, busy := !t.ended, taken := [], pending := q.pending, sent := q.sent, delay := n }) ∨
    (∃ b rest, t.output.drop q.core.output.length = b :: rest ∧
      q.handled u t n =
        { core := u, landing := some t, busy := q.busy, taken := [], pending := b :: rest, sent := q.sent, delay := n }) := by
  unfold PortState.handled
  split
  · next h => exact .inl ⟨h, rfl⟩
  · next b rest h => exact .inr ⟨b, rest, h, rfl⟩

@[simp] theorem PortState.handled_code (q : PortState) (u t : State) (n : Nat) : (q.handled u t n).code = t := by
  rcases q.handled_cases u t n with ⟨-, h⟩ | ⟨b, rest, -, h⟩ <;> rw [h] <;> rfl

/-- The completion of a form leaves all as it is, or runs the form and the class of the value it returned. -/
theorem PortState.complete_cases (q : PortState) (n : Nat) :
    q.complete n = q ∨ ∃ i u t, decodeFetch q.core.loPend q.core.rem q.taken = .ok i ∧
      runFetched i q.core = .next u ∧ handleFetched u = .next t ∧ q.complete n = q.handled u t n := by
  unfold PortState.complete
  split
  · exact .inl rfl
  · next i hi =>
    split
    · exact .inl rfl
    · exact .inl rfl
    · next u hu =>
      split
      · exact .inl rfl
      · exact .inl rfl
      · next t ht => exact .inr ⟨i, u, t, hi, hu, ht, rfl⟩

/-- Where the form decodes and its value has a class that runs, the completion handles it. -/
theorem PortState.complete_of {q : PortState} {i : Instr} {u t : State} (n : Nat)
    (hi : decodeFetch q.core.loPend q.core.rem q.taken = .ok i) (hu : runFetched i q.core = .next u)
    (ht : handleFetched u = .next t) : q.complete n = q.handled u t n := by
  simp only [PortState.complete, hi, hu, ht]

/-! ## The cycle -/

/-- The cases of a clock cycle: reset, idle, start, work, sink not ready, a byte out, no byte offered, a byte in, a form complete. -/
theorem PortState.cycle_cases (p : PortIn) (q : PortState) :
    (p.rst = true ∧ q.cycle p = q.reset) ∨
    (p.rst = false ∧ q.busy = false ∧ p.start = false ∧ q.cycle p = q) ∨
    (p.rst = false ∧ q.busy = false ∧ p.start = true ∧ q.cycle p = q.accept p.inLen p.pace) ∨
    (p.rst = false ∧ q.busy = true ∧ ∃ n, q.delay = n + 1 ∧ q.cycle p = { q with delay := n }) ∨
    (p.rst = false ∧ q.busy = true ∧ q.delay = 0 ∧ q.pending ≠ [] ∧ p.outReady = false ∧ q.cycle p = q) ∨
    (p.rst = false ∧ q.busy = true ∧ q.delay = 0 ∧ p.outReady = true ∧ ∃ b rest, q.pending = b :: rest ∧
      q.cycle p = q.send b rest p.pace) ∨
    (p.rst = false ∧ q.busy = true ∧ q.delay = 0 ∧ q.pending = [] ∧ q.taken.length < q.need ∧ p.inValid = false ∧
      q.cycle p = q) ∨
    (p.rst = false ∧ q.busy = true ∧ q.delay = 0 ∧ q.pending = [] ∧ q.taken.length < q.need ∧ p.inValid = true ∧
      q.cycle p = q.take p.inData p.pace) ∨
    (p.rst = false ∧ q.busy = true ∧ q.delay = 0 ∧ q.pending = [] ∧ q.need ≤ q.taken.length ∧
      q.cycle p = q.complete p.pace) := by
  unfold PortState.cycle
  by_cases hr : p.rst = true
  · exact .inl ⟨hr, if_pos hr⟩
  rw [if_neg hr]
  simp only [Bool.not_eq_true] at hr
  right
  by_cases hb : q.busy = true
  · rw [if_neg (by simp [hb])]
    right; right
    split
    · next n hn => exact .inl ⟨hr, hb, n, hn, rfl⟩
    · next hd =>
      right
      split
      · next b rest hp =>
        split
        · next ho => exact .inr (.inl ⟨hr, hb, hd, ho, b, rest, hp, rfl⟩)
        · next ho => exact .inl ⟨hr, hb, hd, by simp [hp], by simpa using ho, rfl⟩
      · next hp =>
        right; right
        split
        · next hl =>
          split
          · next hv => exact .inr (.inl ⟨hr, hb, hd, hp, hl, hv, rfl⟩)
          · next hv => exact .inl ⟨hr, hb, hd, hp, hl, by simpa using hv, rfl⟩
        · next hl => exact .inr (.inr ⟨hr, hb, hd, hp, Nat.le_of_not_lt hl, rfl⟩)
  · simp only [Bool.not_eq_true] at hb
    rw [if_pos (by simp [hb])]
    split
    · next hs => exact .inr (.inl ⟨hr, hb, hs, rfl⟩)
    · next hs => exact .inl ⟨hr, hb, by simpa using hs, rfl⟩

/-- Cycles one after another. -/
theorem PortState.cycles_append (q : PortState) (ps rs : List PortIn) :
    q.cycles (ps ++ rs) = (q.cycles ps).cycles rs := by
  induction ps generalizing q with
  | nil => rfl
  | cons p ps ih => exact ih _

/-- An idle core without a start command stays as it is (R193 W1). -/
theorem PortState.cycle_idle {p : PortIn} {q : PortState} (hb : q.busy = false) (hr : p.rst = false)
    (hs : p.start = false) : q.cycle p = q := by
  simp [PortState.cycle, hb, hr, hs]

/-- Once idle, it stays so as long as neither a reset nor a start command comes. -/
theorem PortState.cycles_idle {q : PortState} {f : Nat → PortIn} {m : Nat}
    (hb : (q.cycles ((List.range m).map f)).busy = false)
    (hf : ∀ n, m ≤ n → (f n).rst = false ∧ (f n).start = false) {n : Nat} (hn : m ≤ n) :
    q.cycles ((List.range n).map f) = q.cycles ((List.range m).map f) := by
  induction n, hn using Nat.le_induction with
  | base => rfl
  | succ n hn ih =>
    rw [List.range_succ, List.map_append, cycles_append, ih]
    exact cycle_idle hb (hf n hn).1 (hf n hn).2

end Sys2Proof.Machine
end

