-- ==== Sys2Proof/Laws/Run.lean ====
section
/-! SUPPORT. Runs of a machine, one step at a time: for any machine, then for this one. -/

namespace Sys2Proof.Machine

/-- The first step of a run. -/
theorem run_succ_of_step (m : Host.Core) (k : Nat) {s t : m.State} (h : m.step s = .next t) :
    m.run (k + 1) s = m.run k t := by
  rw [Host.Core.run, h]

/-- A run of `k` steps followed by a step. -/
theorem run_then_step (m : Host.Core) (k : Nat) {s t u : m.State} (h : m.run k s = .next t)
    (hu : m.step t = .next u) : m.run (k + 1) s = .next u := by
  induction k generalizing s with
  | zero => cases h; rw [run_succ_of_step m 0 hu, Host.Core.run]
  | succ k ih =>
    rw [Host.Core.run] at h ⊢
    split at h
    · next s' hs => exact ih h
    · cases h
    · cases h

theorem core_run_zero (s : State) : core.run 0 s = .next s := rfl

theorem core_run_succ (k : Nat) {s t : State} (h : step s = .next t) : core.run (k + 1) s = core.run k t :=
  run_succ_of_step core k h

theorem core_run_step (k : Nat) {s t u : State} (h : core.run k s = .next t) (hu : step t = .next u) :
    core.run (k + 1) s = .next u :=
  run_then_step core k h hu

end Sys2Proof.Machine
end

