-- ==== Sys2Proof/Tests/Slice0.lean ====
section
/-! SUPPORT. Tests of this model's own. Expected values are those of spec/95_test_vectors.md (S1 to S9, B1 to B15, T1 to T10, E1 to
E23, X1 to X14, P1) or are worked out by hand from the rule named. First the well-formedness smoke test, then decoding, one step of
each row, and a witness for the hypotheses of every statement that has some. -/

namespace Sys2Proof.Tests

open Machine

/-! ## Helpers -/

/-- The next state, if there is one. -/
def after : Result → Option State
  | .next t => some t
  | .fault _ => none
  | .refused _ => none

/-- The name of a refusal, if there is one. -/
def refusal : Result → Option Refusal
  | .next _ => none
  | .fault _ => none
  | .refused e => some e

/-- The name of a fault, if there is one. -/
def fault : Result → Option Fault
  | .next _ => none
  | .fault e => some e
  | .refused _ => none

/-- A reader before a fetch, with bytes standing from `pos` on. -/
def reader (len pos : Nat) (loPend : Bool) (loNib : Nibble) (bytes : List Byte) : State :=
  { State.reset with
    state := .decoding, len := len, pos := pos, loPend := loPend, loNib := loNib, input := Cells.ofSeq pos bytes }

/-- What the tables of the reader list. -/
structure ReaderView where
  value : Ret
  pos : Nat
  loPend : Bool
  loNib : Nibble
  trunc : Bool
  deriving DecidableEq, Repr

def readerView (r : Result) : Option ReaderView := (after r).map fun t => ⟨t.ret, t.pos, t.loPend, t.loNib, t.trunc⟩

/-- An engine in the loop: the literals and the learned entries given. -/
def looping (prev : Code) (nfi : Fetched) (learned : List (Nat × List Byte)) : State :=
  { State.reset with state := .decoding, prev := prev, nfi := nfi, dict := Dict.literals ++ learned }

/-- A fresh session: Start with the literals. -/
def fresh : State := { State.reset with nfi := 256#13, dict := Dict.literals }

/-- What the tables of the engine list. -/
structure EngineView where
  emitted : List Byte
  prev : Code
  nfi : Fetched
  state : Phase
  err : ErrKind
  deriving DecidableEq, Repr

def engineView (r : Result) : Option EngineView := (after r).map fun t => ⟨t.output, t.prev, t.nfi, t.state, t.err⟩

/-- One slot of the state after. -/
def slotAfter (r : Result) (k : Nat) : Option (List Byte) := (after r).bind fun t => Cells.read t.dict k

/-- An idle core with an input. -/
def supplied (bytes : List Byte) : State := { State.reset with input := Memory.ofBytes bytes }

/-- Program P1 after its step 0: the first byte of "ABABABA" is out, a nibble is pending. -/
def p1 : State :=
  { State.reset with
    state := .decoding, len := 6, pos := 2, loPend := true, cur := 65#13, prev := 65#12, nfi := 256#13
    dict := Dict.literals, input := Memory.ofBytes [0x04#8, 0x10#8, 0x42#8, 0x10#8, 0x01#8, 0x02#8]
    output := [0x41#8], ret := .fetched 65#13 }

/-! ## Well-formedness: one ill-formed term for each check -/

theorem test_wf_firstbad_too_small : (Instr.eFirstBad 255#13).wf = false := by decide
theorem test_wf_firstbad_too_large : (Instr.eFirstBad 4097#13).wf = false := by decide
theorem test_wf_bad_too_small : (Instr.eBad 256#12).wf = false := by decide
theorem test_wf_kwkwk_literal : (Instr.eKwkwk 255#12).wf = false := by decide
theorem test_wf_known_too_large : (Instr.eKnown 4095#12).wf = false := by decide
theorem test_wf_append_too_short : (Instr.dAppend [0x41#8]).wf = false := by decide
theorem test_wf_append_too_long : (Instr.dAppend (List.replicate 3842 0x00#8)).wf = false := by decide +kernel

theorem test_wf_boundaries :
    (Instr.eFirstBad 256#13).wf = true ∧ (Instr.eFirstBad 4096#13).wf = true ∧ (Instr.eBad 257#12).wf = true ∧
      (Instr.eKwkwk 256#12).wf = true ∧ (Instr.eKwkwk 4095#12).wf = true ∧ (Instr.eKnown 4094#12).wf = true ∧
      (Instr.dAppend [0x41#8, 0x42#8]).wf = true := by decide

/-! ## Decoding: words written out from the spec's encodings -/

/-- R81, `aaaaaaaaaaaannnn` = 0001 0010 0011 0100 (S9: `12 34 56`). -/
theorem test_decode_pair0 : decodeFetch false 3 [0b00010010#8, 0b00110100#8, 0b01010110#8] =
    .ok (.ncPair0 0b000100100011#12 0b0100#4) := rfl

/-- R81, `bbbbbbbb` = 0101 0110. -/
theorem test_decode_pair1 : decodeFetch true 1 [0b01010110#8] = .ok (.ncPair1 0b01010110#8) := rfl

/-- R82, `aaaaaaaaaaaapppp` = 0001 0010 0011 1111 (B5). -/
theorem test_decode_tail : decodeFetch false 2 [0b00010010#8, 0b00111111#8] =
    .ok (.ncTail 0b000100100011#12 0b1111#4) := rfl

/-- R94. -/
theorem test_decode_eos0 : decodeFetch false 0 [] = .ok .ncEos0 := rfl

/-- R83, `xxxxxxxx` = 0100 0001 (B11). -/
theorem test_decode_eos1 : decodeFetch false 1 [0b01000001#8] = .ok (.ncEos1 0b01000001#8) := rfl

/-- R94. -/
theorem test_decode_eosn : decodeFetch true 0 [] = .ok .ncEosn := rfl

/-- R87, `00000bbbbbbbb` with the byte 1111 1111 (E3). -/
theorem test_decode_first : decodeFirst 256#13 0b0000011111111#13 = .ok (.eFirst 0b11111111#8) := rfl

/-- R87, `ecccccccccccc` with e = 0 (S2: 300) and with e = 1. -/
theorem test_decode_firstbad :
    decodeFirst 256#13 0b0000100101100#13 = .ok (.eFirstBad 300#13) ∧
      decodeFirst 256#13 0b1000000000000#13 = .ok (.eFirstBad 4096#13) := ⟨rfl, rfl⟩

/-- R87, `1000000000000`; it comes before the stale test (E21). -/
theorem test_decode_eos : decodeLoop 256#13 4095#12 0b1000000000000#13 = .ok .eEos := rfl

/-- R87, `0cccccccccccc` = 257; bad before stale (E10, E20). -/
theorem test_decode_bad :
    decodeLoop 256#13 65#12 0b0000100000001#13 = .ok (.eBad 0b000100000001#12) ∧
      decodeLoop 256#13 4095#12 0b0000100000001#13 = .ok (.eBad 0b000100000001#12) := ⟨rfl, rfl⟩

/-- R87 (E18, E19, E23). -/
theorem test_decode_stale :
    decodeLoop 256#13 4095#12 0b0000001000001#13 = .ok (.eStale 65#12) ∧
      decodeLoop 256#13 4095#12 256#13 = .ok (.eStale 256#12) ∧
      decodeLoop 256#13 256#12 0#13 = .ok (.eStale 0#12) := ⟨rfl, rfl, rfl⟩

/-- R87, `0cccccccccccc` = 258 with `nfi` = 258 (E12), and the largest code (E16). -/
theorem test_decode_kwkwk :
    decodeLoop 258#13 256#12 0b0000100000010#13 = .ok (.eKwkwk 0b000100000010#12) ∧
      decodeLoop 4095#13 4094#12 0b0111111111111#13 = .ok (.eKwkwk 0b111111111111#12) := ⟨rfl, rfl⟩

/-- R87 (E7, E13). -/
theorem test_decode_known :
    decodeLoop 256#13 65#12 0b0000001000010#13 = .ok (.eKnown 66#12) ∧
      decodeLoop 258#13 256#12 256#13 = .ok (.eKnown 256#12) := ⟨rfl, rfl⟩

/-- The dictionary's operations and `S.START` have no bits in the stream (R98). -/
theorem test_no_stream_bits :
    encode .dInit = none ∧ encode (.dGet 65#12) = none ∧ encode (.dAppend [1#8, 2#8]) = none ∧ encode .dReset = none ∧
      encode .dTeardown = none ∧ encode (.sStart 3) = none := ⟨rfl, rfl, rfl, rfl, rfl, rfl⟩

/-- The `pack` examples of spec/95_test_vectors.md section 2. -/
theorem test_pack :
    pack [65#12, 66#12, 256#12, 258#12] = [0x04#8, 0x10#8, 0x42#8, 0x10#8, 0x01#8, 0x02#8] ∧
      pack [65#12, 66#12, 256#12] = [0x04#8, 0x10#8, 0x42#8, 0x10#8, 0x00#8] ∧
      pack [4095#12, 0#12] = [0xFF#8, 0xF0#8, 0x00#8] ∧ pack [300#12] = [0x12#8, 0xC0#8] ∧ pack [] = [] := by decide

/-- A table word of two bytes is a whole input of two bytes, so `NC.TAIL` (S4: `04 1F`), the first byte in bits 7..0. -/
theorem test_table_word : decodeTableWord 16 0x1F04 = some (.ncTail 0x041#12 0xF#4) := by decide

/-- What codes decode to: P1, X14 and X8. -/
theorem test_decode_codes :
    decodeCodes [65#12, 66#12, 256#12, 258#12] =
        ⟨.finished, .none, false, [0x41#8, 0x42#8, 0x41#8, 0x42#8, 0x41#8, 0x42#8, 0x41#8]⟩ ∧
      decodeCodes [65#12, 256#12, 257#12] = ⟨.finished, .none, false, List.replicate 6 0x41#8⟩ ∧
      decodeCodes [65#12, 257#12] = ⟨.failed, .invalidCode, false, [0x41#8]⟩ := by decide +kernel

/-! ## One fetch -/

/-- B3 and B13. -/
theorem test_pair0 :
    readerView (reader 3 0 false 0#4 [0x12#8, 0x34#8]).nextCode =
        some ⟨.fetched 0x123#13, 2, true, 4#4, false⟩ ∧
      readerView (reader 3 0 false 0#4 [0xFF#8, 0xFF#8]).nextCode =
        some ⟨.fetched 0xFFF#13, 2, true, 15#4, false⟩ := by decide

/-- B4 and B2. -/
theorem test_pair1 :
    readerView (reader 3 2 true 4#4 [0x56#8]).nextCode = some ⟨.fetched 0x456#13, 3, false, 4#4, false⟩ ∧
      readerView (reader 6 2 true 0#4 [0x42#8]).nextCode = some ⟨.fetched 66#13, 3, false, 0#4, false⟩ := by decide

/-- B6 and B5. -/
theorem test_tail :
    readerView (reader 5 3 false 7#4 [0xFF#8, 0xF0#8]).nextCode = some ⟨.fetched 4095#13, 5, false, 7#4, false⟩ ∧
      readerView (reader 2 0 false 0#4 [0x12#8, 0x3F#8]).nextCode = some ⟨.fetched 0x123#13, 2, false, 0#4, false⟩ := by
  decide

/-- B8 and B9. -/
theorem test_eos0 :
    readerView (reader 6 6 false 2#4 []).nextCode = some ⟨.fetched 4096#13, 6, false, 2#4, false⟩ ∧
      readerView (reader 0 0 false 0#4 []).nextCode = some ⟨.fetched 4096#13, 0, false, 0#4, false⟩ := by decide

/-- B10 and B11. -/
theorem test_eos1 :
    readerView (reader 4 3 false 0#4 [0x99#8]).nextCode = some ⟨.fetched 4096#13, 4, false, 0#4, true⟩ ∧
      readerView (reader 1 0 false 0#4 [0x41#8]).nextCode = some ⟨.fetched 4096#13, 1, false, 0#4, true⟩ := by decide

/-- B12. -/
theorem test_eosn :
    readerView (reader 2 2 true 5#4 []).nextCode = some ⟨.fetched 4096#13, 2, true, 5#4, true⟩ := by decide

/-- A form invoked where its selector does not hold is refused (log entry 9): `NC.PAIR0` with two bytes left. -/
theorem test_form_not_selected : refusal (exec (.ncPair0 0x123#12 4#4) (reader 2 0 false 0#4 [])) = some .notSelected := by
  decide

/-! ## One dictionary operation -/

/-- T1 (S5). -/
theorem test_init :
    slotAfter (exec .dInit State.reset) 0 = some [0x00#8] ∧ slotAfter (exec .dInit State.reset) 65 = some [0x41#8] ∧
      slotAfter (exec .dInit State.reset) 255 = some [0xFF#8] ∧ slotAfter (exec .dInit State.reset) 256 = none := by
  decide +kernel

/-- T2, T5. -/
theorem test_get :
    (after (exec (.dGet 255#12) fresh)).map State.ret = some (.entry [0xFF#8]) ∧
      (after (exec (.dGet 256#12) (looping 65#12 257#13 [(256, [0x41#8, 0x42#8])]))).map State.ret =
        some (.entry [0x41#8, 0x42#8]) := by decide +kernel

/-- T3: outside the domain. -/
theorem test_get_outside : refusal (exec (.dGet 256#12) fresh) = some .emptySlot := by decide +kernel

/-- T4, and T7: the last slot is used and the append does not reset. -/
theorem test_append :
    (after (exec (.dAppend [0x41#8, 0x42#8]) fresh)).map (fun t => (t.ret, t.nfi)) = some (.index 256#12, 257#13) ∧
      (after (exec (.dAppend [0x41#8, 0x42#8]) (looping 65#12 4095#13 []))).map
        (fun t => (t.ret, t.nfi, Cells.read t.dict 4095)) =
          some (.index 4095#12, 4096#13, some [0x41#8, 0x42#8]) := by decide +kernel

/-- Slot 4096 does not exist (R55); no entry of one byte, none below 256 (R132). -/
theorem test_append_outside :
    fault (exec (.dAppend [0x41#8, 0x42#8]) (looping 65#12 4096#13 [])) = some .noSuchSlot ∧
      refusal (exec (.dAppend [0x41#8]) fresh) = some .appendOutsideDomain ∧
      refusal (exec (.dAppend [0x41#8, 0x42#8]) State.reset) = some .appendOutsideDomain := by decide +kernel

/-- T8 (S7). -/
theorem test_reset :
    (after (exec .dReset (looping 65#12 4096#13 [(256, [1#8, 2#8]), (4095, [3#8, 4#8])]))).map
      (fun t => (t.nfi, Cells.read t.dict 256, Cells.read t.dict 4095, Cells.read t.dict 255)) =
        some (256#13, none, none, some [0xFF#8]) := by decide +kernel

/-- T9. -/
theorem test_teardown :
    (after (exec .dTeardown (looping 65#12 300#13 [(256, [1#8, 2#8])]))).map (fun t => (t.nfi, t.dict)) =
      some (0#13, []) := by decide +kernel

/-! ## One class -/

/-- E1 and E3. -/
theorem test_first :
    engineView (exec (.eFirst 65#8) fresh) = some ⟨[0x41#8], 65#12, 256#13, .decoding, .none⟩ ∧
      engineView (exec (.eFirst 255#8) fresh) = some ⟨[0xFF#8], 255#12, 256#13, .decoding, .none⟩ := by decide +kernel

/-- E4 and E6. -/
theorem test_firstbad :
    engineView (exec (.eFirstBad 256#13) fresh) = some ⟨[], 0#12, 0#13, .failed, .invalidFirstCode⟩ ∧
      engineView (exec (.eFirstBad 4096#13) fresh) = some ⟨[], 0#12, 0#13, .failed, .invalidFirstCode⟩ := by
  decide +kernel

/-- E15. -/
theorem test_eos :
    engineView (exec .eEos (looping 66#12 257#13 [(256, [0x41#8, 0x42#8])])) =
      some ⟨[], 66#12, 0#13, .finished, .none⟩ := by decide +kernel

/-- E10 and E20. -/
theorem test_bad :
    engineView (exec (.eBad 257#12) (looping 65#12 256#13 [])) = some ⟨[], 65#12, 0#13, .failed, .invalidCode⟩ ∧
      engineView (exec (.eBad 257#12) (looping 4095#12 256#13 [])) =
        some ⟨[], 4095#12, 0#13, .failed, .invalidCode⟩ := by decide +kernel

/-- E19 and E23. -/
theorem test_stale :
    engineView (exec (.eStale 256#12) (looping 4095#12 256#13 [])) =
        some ⟨[], 4095#12, 0#13, .failed, .stalePreviousCode⟩ ∧
      engineView (exec (.eStale 0#12) (looping 256#12 256#13 [])) =
        some ⟨[], 256#12, 0#13, .failed, .stalePreviousCode⟩ := by decide +kernel

/-- E12, the self-referential case (S6). -/
theorem test_kwkwk :
    engineView (exec (.eKwkwk 258#12) (looping 256#12 258#13 [(256, [0x41#8, 0x42#8]), (257, [0x42#8, 0x41#8])])) =
        some ⟨[0x41#8, 0x42#8, 0x41#8], 258#12, 259#13, .decoding, .none⟩ ∧
      slotAfter (exec (.eKwkwk 258#12) (looping 256#12 258#13 [(256, [0x41#8, 0x42#8]), (257, [0x42#8, 0x41#8])])) 258 =
        some [0x41#8, 0x42#8, 0x41#8] := by decide +kernel

/-- E16: emit, then reset; the stale code stays in `prev`. -/
theorem test_kwkwk_full :
    engineView (exec (.eKwkwk 4095#12) (looping 4094#12 4095#13 [(4094, [0x41#8, 0x42#8])])) =
        some ⟨[0x41#8, 0x42#8, 0x41#8], 4095#12, 256#13, .decoding, .none⟩ ∧
      slotAfter (exec (.eKwkwk 4095#12) (looping 4094#12 4095#13 [(4094, [0x41#8, 0x42#8])])) 4095 = none := by
  decide +kernel

/-- E11. -/
theorem test_known :
    engineView (exec (.eKnown 256#12) (looping 66#12 257#13 [(256, [0x41#8, 0x42#8])])) =
        some ⟨[0x41#8, 0x42#8], 256#12, 258#13, .decoding, .none⟩ ∧
      slotAfter (exec (.eKnown 256#12) (looping 66#12 257#13 [(256, [0x41#8, 0x42#8])])) 257 =
        some [0x42#8, 0x41#8] := by decide +kernel

/-- E17. -/
theorem test_known_full :
    engineView (exec (.eKnown 65#12) (looping 4094#12 4095#13 [(4094, [0x43#8, 0x42#8])])) =
        some ⟨[0x41#8], 65#12, 256#13, .decoding, .none⟩ ∧
      slotAfter (exec (.eKnown 65#12) (looping 4094#12 4095#13 [(4094, [0x43#8, 0x42#8])])) 4094 = none := by
  decide +kernel

/-! ## One step -/

/-- S3, step 0: `00 10`. -/
theorem test_start :
    engineView (exec (.sStart 2) (supplied [0x00#8, 0x10#8])) = some ⟨[0x01#8], 1#12, 256#13, .decoding, .none⟩ := by
  decide +kernel

/-- S1 and X5: the failing starts. -/
theorem test_start_bad :
    readerView (exec (.sStart 1) (supplied [0x41#8])) = some ⟨.fetched 4096#13, 1, false, 0#4, true⟩ ∧
      engineView (exec (.sStart 1) (supplied [0x41#8])) = some ⟨[], 0#12, 0#13, .failed, .invalidFirstCode⟩ ∧
      readerView (exec (.sStart 3) (supplied [0xFF#8, 0xFF#8, 0xFF#8])) =
        some ⟨.fetched 4095#13, 2, true, 15#4, false⟩ := by decide +kernel

/-- P1, step 1: `NC.PAIR1` gives 66, `E.KNOWN` appends `41 42` and emits `42`. -/
theorem test_step_p1 :
    engineView (step p1) = some ⟨[0x41#8, 0x42#8], 66#12, 257#13, .decoding, .none⟩ ∧
      slotAfter (step p1) 256 = some [0x41#8, 0x42#8] := by decide +kernel

/-- Right after reset the machine runs the input the host lays (log entry 17): S4, `04 1F`. -/
theorem test_fetch_word_after_reset :
    engineView (step (State.reset.withFetchWord 16 0x1F04)) = some ⟨[0x41#8], 65#12, 256#13, .decoding, .none⟩ := by
  decide +kernel

/-- P1 at step 1 meets the invariant. -/
theorem test_inv_p1 : StateInv p1 where
  posLe := by decide
  pendPos := by decide
  noPendPos := by decide
  liveCursor := by decide
  noDict := by decide
  filled := fun k => by
    show (Cells.read Dict.literals k).isSome = true ↔ k < 256
    rw [Dict.read_literals]
    split <;> simp_all
  literals := fun _ k hk => by
    show Cells.read Dict.literals k = _
    rw [Dict.read_literals, if_pos hk]
  bounded := fun k entry hk h => by
    change Cells.read Dict.literals k = some entry at h
    rw [Dict.read_literals, if_neg (by omega)] at h
    cases h
  finishedAt := by decide
  errFailed := by decide
  errProduced := by decide
  truncAt := by decide
  staleAt := by decide
  curRange := by decide
  dictWf := Dict.wf_literals
  inputWf := Memory.wf_ofBytes _

/-! ## Witnesses: a concrete state and operands for the hypotheses of every statement that has some -/

/-- A result that is evaluated to a next state with a property. -/
theorem runs {r : Result} {P : State → Prop} [DecidablePred P] (h : (after r).any (fun t => decide (P t)) = true) :
    ∃ t, r = .next t ∧ P t := by
  cases r with
  | next t => exact ⟨t, rfl, by simpa [after] using h⟩
  | fault e => cases h
  | refused e => cases h

/-- A result that is evaluated to a next state. -/
theorem completes {r : Result} (h : (after r).isSome = true) : ∃ t, r = .next t := by
  cases r with
  | next t => exact ⟨t, rfl⟩
  | fault e => cases h
  | refused e => cases h

/-- The steps that the witnesses below take, evaluated once. -/
theorem samples_complete :
    (after (exec (.dAppend [0x41#8, 0x42#8]) fresh)).isSome = true ∧ (after (exec (.dGet 65#12) fresh)).isSome = true ∧
      (after (exec (.dAppend [0x41#8, 0x42#8]) p1)).isSome = true ∧ (after (exec (.eFirst 65#8) fresh)).isSome = true ∧
      (after (exec (.eKnown 66#12) p1)).isSome = true ∧ (after (step p1)).isSome = true := by decide +kernel

theorem fresh_filled : DictFilled fresh := test_inv_p1.filled

theorem fresh_literals : LiteralsHeld fresh := test_inv_p1.literals

/-- A full table, `nfi` = 4096, as an append leaves it before the reset. -/
def full : State :=
  { State.reset with
    state := .decoding, nfi := 4096#13
    dict := Cells.ofSeq 0 ((List.range 256).map (fun i => [BitVec.ofNat 8 i]) ++ List.replicate 3840 [0#8, 0#8]) }

theorem full_filled : DictFilled full := fun k => by
  show (Cells.read (Cells.ofSeq 0 _) k).isSome = true ↔ k < 4096
  rw [Cells.read_ofSeq, if_pos (Nat.zero_le k), Option.isSome_iff_ne_none, Ne, List.getElem?_eq_none_iff, Nat.not_le,
    List.length_append,
    List.length_map, List.length_range, List.length_replicate, Nat.sub_zero]

theorem full_literals : LiteralsHeld full := fun _ k hk => by
  show Cells.read (Cells.ofSeq 0 _) k = _
  rw [Cells.read_ofSeq, if_pos (Nat.zero_le k)]
  simp only [Nat.sub_zero]
  rw [List.getElem?_append_left (by simpa using hk)]
  simp [hk]

theorem test_witness_FetchFormsDecodeTheirEncoding :
    (FormSelected false 3 (.ncPair0 0x123#12 4#4) ∧ encode (.ncPair0 0x123#12 4#4) = some (.inl [0x12#8, 0x34#8])) ∧
    (FormSelected true 1 (.ncPair1 0x56#8) ∧ encode (.ncPair1 0x56#8) = some (.inl [0x56#8])) ∧
    (FormSelected false 2 (.ncTail 0xFFF#12 15#4) ∧ encode (.ncTail 0xFFF#12 15#4) = some (.inl [0xFF#8, 0xFF#8])) ∧
    (FormSelected false 0 .ncEos0 ∧ encode .ncEos0 = some (.inl [])) ∧
    (FormSelected false 1 (.ncEos1 0x41#8) ∧ encode (.ncEos1 0x41#8) = some (.inl [0x41#8])) ∧
    (FormSelected true 0 .ncEosn ∧ encode .ncEosn = some (.inl [])) := by simp [FormSelected, encode]; decide

theorem test_witness_ClassesDecodeTheirEncoding :
    (ClassSelected fresh (.eFirst 255#8) ∧ encode (.eFirst 255#8) = some (.inr 255#13)) ∧
    (ClassSelected fresh (.eFirstBad 256#13) ∧ encode (.eFirstBad 256#13) = some (.inr 256#13)) ∧
    (ClassSelected fresh (.eFirstBad 4096#13) ∧ encode (.eFirstBad 4096#13) = some (.inr 4096#13)) ∧
    (ClassSelected (looping 65#12 256#13 []) .eEos ∧ encode .eEos = some (.inr 4096#13)) ∧
    (ClassSelected (looping 65#12 256#13 []) (.eBad 257#12) ∧ encode (.eBad 257#12) = some (.inr 257#13)) ∧
    (ClassSelected (looping 256#12 256#13 []) (.eStale 256#12) ∧ encode (.eStale 256#12) = some (.inr 256#13)) ∧
    (ClassSelected (looping 65#12 256#13 []) (.eKwkwk 256#12) ∧ encode (.eKwkwk 256#12) = some (.inr 256#13)) ∧
    (ClassSelected (looping 65#12 256#13 []) (.eKnown 255#12) ∧ encode (.eKnown 255#12) = some (.inr 255#13)) :=
  ⟨⟨⟨rfl, rfl⟩, rfl⟩, ⟨⟨rfl, rfl, by decide, by decide⟩, rfl⟩, ⟨⟨rfl, rfl, by decide, by decide⟩, rfl⟩, ⟨rfl, rfl⟩,
    ⟨⟨rfl, by decide⟩, rfl⟩, ⟨⟨rfl, by decide, by decide⟩, rfl⟩, ⟨⟨rfl, by decide, by decide⟩, rfl⟩,
    ⟨⟨rfl, by decide, by decide⟩, rfl⟩⟩

theorem test_witness_DecodedFormsReencodeToTheirBytes :
    decodeFetch false 2 [0x12#8, 0x3F#8] = .ok (.ncTail 0x123#12 15#4) := rfl

theorem test_witness_FormChosenByPendingAndRemaining :
    formBytes false 3 ≤ [0x12#8, 0x34#8].length ∧
      decodeFetch false 3 [0x12#8, 0x34#8] = .ok (.ncPair0 0x123#12 4#4) ∧
      formBytes true 0 ≤ ([] : List Byte).length ∧ decodeFetch true 0 [] = .ok .ncEosn :=
  ⟨by decide, rfl, by decide, rfl⟩

theorem test_witness_PackedCodesReadBack : ∃ s : State,
    s.pos = 0 ∧ s.loPend = false ∧ s.len = (pack [65#12, 66#12, 256#12]).length ∧
      s.input = Memory.ofBytes (pack [65#12, 66#12, 256#12]) :=
  ⟨{ supplied (pack [65#12, 66#12, 256#12]) with len := 5 }, rfl, rfl, rfl, rfl⟩

theorem test_witness_Pair0ReturnsCodeAndKeepsNibble : ∃ s : State,
    s.loPend = false ∧ 3 ≤ s.len - s.pos ∧ s.len - s.pos = 3 ∧ Cells.read s.input s.pos = some 0x12#8 ∧
      Cells.read s.input (s.pos + 1) = some 0x34#8 :=
  ⟨reader 3 0 false 0#4 [0x12#8, 0x34#8], by decide⟩

theorem test_witness_Pair1JoinsKeptNibble : ∃ s : State,
    s.loPend = true ∧ 1 ≤ s.len - s.pos ∧ Cells.read s.input s.pos = some 0x56#8 :=
  ⟨reader 3 2 true 4#4 [0x56#8], by decide⟩

theorem test_witness_TailReturnsCodeAndIgnoresPadding : ∃ s : State,
    s.loPend = false ∧ s.len - s.pos = 2 ∧ Cells.read s.input s.pos = some 0xFF#8 ∧
      Cells.read s.input (s.pos + 1) = some 0xF0#8 :=
  ⟨reader 5 3 false 7#4 [0xFF#8, 0xF0#8], by decide⟩

theorem test_witness_CleanEndReturnsSentinel : ∃ s : State, s.loPend = false ∧ s.len - s.pos = 0 :=
  ⟨reader 6 6 false 2#4 [], by decide⟩

theorem test_witness_DanglingByteConsumedAndTruncSet : ∃ s : State,
    s.loPend = false ∧ s.len - s.pos = 1 ∧ Cells.read s.input s.pos = some 0x99#8 :=
  ⟨reader 4 3 false 0#4 [0x99#8], by decide⟩

theorem test_witness_PendingNibbleAtEndSetsTrunc : ∃ s : State, s.loPend = true ∧ s.len - s.pos = 0 :=
  ⟨reader 2 2 true 5#4 [], by decide⟩

theorem test_witness_EndOfStreamSticky : ∃ s t : State,
    s.fetch = .ok (.ncEos1 0x41#8) ∧ exec (.ncEos1 0x41#8) s = .next t ∧ t.ret = .fetched 4096#13 :=
  ⟨reader 1 0 false 0#4 [0x41#8], _, rfl, rfl, rfl⟩

theorem test_witness_FetchPointerNeverPassesLength : ∃ s t : State,
    s.pos ≤ s.len ∧ encode (.ncPair1 0x56#8) = some (.inl [0x56#8]) ∧ exec (.ncPair1 0x56#8) s = .next t :=
  ⟨reader 3 2 true 4#4 [0x56#8], _, by decide, rfl, rfl⟩

theorem test_witness_FetchFormsFrame : ∃ s t : State,
    IsFetchForm (.ncPair0 0x123#12 4#4) = true ∧ exec (.ncPair0 0x123#12 4#4) s = .next t :=
  ⟨reader 3 0 false 0#4 [0x12#8, 0x34#8], _, rfl, rfl⟩

theorem test_witness_DictGetReturnsWholeEntry : ∃ s : State,
    (255#12).toNat < s.nfi.toNat ∧ Cells.read s.dict (255#12).toNat = some [0xFF#8] :=
  ⟨fresh, by decide +kernel⟩

theorem test_witness_DictDomainStops :
    (∃ s : State, s.nfi.toNat ≤ (256#12).toNat ∧ s.nfi.toNat = 256) ∧
    (∃ s : State, 4096 ≤ s.nfi.toNat) ∧
    (∃ s : State, s.nfi.toNat < 4096 ∧ s.nfi.toNat < 256 ∧ s.nfi.toNat = 255) ∧
    (∃ s : State, s.nfi.toNat < 4096 ∧ [0x41#8].length < 2 ∧ s.nfi.toNat = 4095) ∧
    (∃ s : State, s.nfi.toNat < 4096 ∧ 3841 < (List.replicate 3842 (0#8 : Byte)).length) :=
  ⟨⟨fresh, by decide⟩, ⟨full, by decide⟩, ⟨looping 65#12 255#13 [], by decide⟩, ⟨looping 65#12 4095#13 [], by decide⟩,
    ⟨fresh, by decide, by rw [List.length_replicate]; decide⟩⟩

theorem test_witness_DictAppendStoresAtCursor :
    (∃ s : State, 256 ≤ s.nfi.toNat ∧ s.nfi.toNat ≤ 4095 ∧ 2 ≤ [0x41#8, 0x42#8].length ∧
      [0x41#8, 0x42#8].length ≤ 3841 ∧ s.nfi.toNat = 256) ∧
    (∃ s : State, 256 ≤ s.nfi.toNat ∧ s.nfi.toNat ≤ 4095 ∧ 2 ≤ (List.replicate 3841 (0#8 : Byte)).length ∧
      (List.replicate 3841 (0#8 : Byte)).length ≤ 3841 ∧ s.nfi.toNat = 4095) :=
  ⟨⟨fresh, by decide⟩, ⟨looping 65#12 4095#13 [], by decide, by decide, by rw [List.length_replicate]; decide,
    by rw [List.length_replicate], by decide⟩⟩

theorem test_witness_DictOpsKeepFilledAndLiterals :
    (∃ t, IsDictOp (.dAppend [0x41#8, 0x42#8]) = true ∧ DictFilled fresh ∧ LiteralsHeld fresh ∧
      (Instr.dAppend [0x41#8, 0x42#8] = .dReset → fresh.nfi = 4096#13) ∧
      exec (.dAppend [0x41#8, 0x42#8]) fresh = .next t) ∧
    (∃ t, IsDictOp .dReset = true ∧ DictFilled full ∧ LiteralsHeld full ∧
      (Instr.dReset = .dReset → full.nfi = 4096#13) ∧ exec .dReset full = .next t) := by
  obtain ⟨t, ht⟩ := completes samples_complete.1
  exact ⟨⟨t, rfl, fresh_filled, fresh_literals, nofun, ht⟩, ⟨_, rfl, full_filled, full_literals, fun _ => rfl, rfl⟩⟩

theorem test_witness_DictOpsFrame : ∃ t u,
    IsDictOp (.dGet 65#12) = true ∧ exec (.dGet 65#12) fresh = .next t ∧
      IsDictOp (.dAppend [0x41#8, 0x42#8]) = true ∧ exec (.dAppend [0x41#8, 0x42#8]) fresh = .next u := by
  obtain ⟨t, ht⟩ := completes samples_complete.2.1
  obtain ⟨u, hu⟩ := completes samples_complete.1
  exact ⟨t, u, rfl, ht, rfl, hu⟩

theorem test_witness_EntryUnchangedWhileItLives : ∃ t u,
    Instr.dAppend [0x41#8, 0x42#8] ≠ .dInit ∧ IsStart (.dAppend [0x41#8, 0x42#8]) = false ∧ DictFilled p1 ∧
      exec (.dAppend [0x41#8, 0x42#8]) p1 = .next t ∧ Cells.read p1.dict 65 = some [0x41#8] ∧
      Instr.dTeardown ≠ .dInit ∧ IsStart .dTeardown = false ∧ exec .dTeardown p1 = .next u := by
  obtain ⟨t, ht⟩ := completes samples_complete.2.2.1
  exact ⟨t, _, nofun, rfl, test_inv_p1.filled, ht, by decide +kernel, nofun, rfl, rfl⟩

theorem test_witness_LiteralSlotsNeverWritten : ∃ t u,
    Instr.dAppend [0x41#8, 0x42#8] ≠ .dInit ∧ IsStart (.dAppend [0x41#8, 0x42#8]) = false ∧ 256 ≤ p1.nfi.toNat ∧
      exec (.dAppend [0x41#8, 0x42#8]) p1 = .next t ∧
      Instr.eEos ≠ .dInit ∧ IsStart .eEos = false ∧ exec .eEos p1 = .next u := by
  obtain ⟨t, ht⟩ := completes samples_complete.2.2.1
  exact ⟨t, _, nofun, rfl, by decide, ht, nofun, rfl, rfl⟩

theorem test_witness_FirstLiteralEmitted : fresh.state = .start ∧ fresh.nfi = 256#13 ∧ LiteralsHeld fresh :=
  ⟨rfl, rfl, fresh_literals⟩

theorem test_witness_FirstBadRaisesInvalidFirstCode :
    fresh.state = .start ∧ fresh.nfi = 256#13 ∧ 256 ≤ (256#13).toNat ∧ (256#13).toNat ≤ 4096 ∧
      256 ≤ (4096#13).toNat ∧ (4096#13).toNat ≤ 4096 := by decide

theorem test_witness_EndOfStreamFinishesSession : p1.state = .decoding := rfl

theorem test_witness_BadCodeRaisesInvalidCode : p1.state = .decoding ∧ p1.nfi.toNat < (257#12).toNat := by decide

theorem test_witness_StalePreviousRaisesItsKind : ∃ s : State,
    s.state = .decoding ∧ (256#12).toNat ≤ s.nfi.toNat ∧ s.nfi.toNat ≤ s.prev.toNat :=
  ⟨looping 256#12 256#13 [], by decide⟩

theorem test_witness_KnownCodeBuildsAndEmits :
    (∃ s : State, s.state = .decoding ∧ 256 ≤ s.nfi.toNat ∧ s.nfi.toNat ≤ 4095 ∧ (255#12).toNat < s.nfi.toNat ∧
      s.prev.toNat < s.nfi.toNat ∧ Cells.read s.dict s.prev.toNat = some [0x41#8] ∧ 1 ≤ [0x41#8].length ∧
      [0x41#8].length ≤ 3840 ∧ Cells.read s.dict (255#12).toNat = some (0xFF#8 :: []) ∧ s.nfi.toNat ≠ 4095) ∧
    (∃ s : State, s.state = .decoding ∧ 256 ≤ s.nfi.toNat ∧ s.nfi.toNat ≤ 4095 ∧ (4094#12).toNat < s.nfi.toNat ∧
      s.prev.toNat < s.nfi.toNat ∧ Cells.read s.dict s.prev.toNat = some [0x41#8, 0x42#8] ∧
      1 ≤ [0x41#8, 0x42#8].length ∧ [0x41#8, 0x42#8].length ≤ 3840 ∧
      Cells.read s.dict (4094#12).toNat = some (0x41#8 :: [0x42#8]) ∧ s.nfi.toNat = 4095) :=
  ⟨⟨looping 65#12 256#13 [], by decide +kernel⟩,
    ⟨looping 4094#12 4095#13 [(4094, [0x41#8, 0x42#8])], by decide +kernel⟩⟩

theorem test_witness_SelfReferentialCodeExtendsPrevious :
    (∃ s : State, s.state = .decoding ∧ 256 ≤ s.nfi.toNat ∧ (256#12).toNat = s.nfi.toNat ∧
      s.prev.toNat < s.nfi.toNat ∧ Cells.read s.dict s.prev.toNat = some (0x41#8 :: []) ∧
      ([] : List Byte).length ≤ 3839 ∧ s.nfi.toNat ≠ 4095) ∧
    (∃ s : State, s.state = .decoding ∧ 256 ≤ s.nfi.toNat ∧ (4095#12).toNat = s.nfi.toNat ∧
      s.prev.toNat < s.nfi.toNat ∧ Cells.read s.dict s.prev.toNat = some (0x41#8 :: [0x42#8]) ∧
      [0x42#8].length ≤ 3839 ∧ s.nfi.toNat = 4095) :=
  ⟨⟨looping 65#12 256#13 [], by decide +kernel⟩,
    ⟨looping 4094#12 4095#13 [(4094, [0x41#8, 0x42#8])], by decide +kernel⟩⟩

theorem test_witness_StreamRowsRunOnlyWhereSelected : ∃ s t u v,
    (exec (.ncPair0 0x123#12 4#4) s = .next t ∧ IsFetchForm (.ncPair0 0x123#12 4#4) = true) ∧
    (exec .eEos p1 = .next u ∧ IsEndingClass .eEos = true) ∧
    (exec (.eKnown 66#12) p1 = .next v ∧ IsEmittingClass (.eKnown 66#12) = true) := by
  obtain ⟨v, hv⟩ := completes samples_complete.2.2.2.2.1
  exact ⟨reader 3 0 false 0#4 [0x12#8, 0x34#8], _, _, v, ⟨rfl, rfl⟩, ⟨rfl, rfl⟩, ⟨hv, rfl⟩⟩

theorem test_witness_EndingClassesFrame : ∃ t u,
    IsEndingClass .eEos = true ∧ exec .eEos p1 = .next t ∧
      IsEndingClass (.eBad 257#12) = true ∧ exec (.eBad 257#12) p1 = .next u :=
  ⟨_, _, rfl, rfl, rfl, rfl⟩

theorem test_witness_EmittingClassesFrame : ∃ t u,
    IsEmittingClass (.eFirst 65#8) = true ∧ exec (.eFirst 65#8) fresh = .next t ∧
      IsEmittingClass (.eKnown 66#12) = true ∧ exec (.eKnown 66#12) p1 = .next u := by
  obtain ⟨t, ht⟩ := completes samples_complete.2.2.2.1
  obtain ⟨u, hu⟩ := completes samples_complete.2.2.2.2.1
  exact ⟨t, u, rfl, ht, rfl, hu⟩

/-- The four clauses; the last at lengths 2 and 3 and at the codes 255 and 256 (X4, X3). -/
theorem test_witness_SessionStartHandlesFirstCode :
    p1.state = .decoding ∧
    ((supplied []).state ≠ .decoding ∧ (0 : Nat) = 0) ∧
    ((supplied [0x41#8]).state ≠ .decoding ∧ Cells.read (supplied [0x41#8]).input 0 = some 0x41#8) ∧
    ((supplied [0x0F#8, 0xF0#8]).state ≠ .decoding ∧ (2 : Nat) ≤ 2 ∧
      Cells.read (supplied [0x0F#8, 0xF0#8]).input 0 = some 0x0F#8 ∧
      Cells.read (supplied [0x0F#8, 0xF0#8]).input 1 = some 0xF0#8 ∧
      (0x0F#8).toNat * 16 + (0xF0#8).toNat / 16 = 255) ∧
    ((supplied [0x10#8, 0x00#8]).state ≠ .decoding ∧ (2 : Nat) ≤ 3 ∧
      Cells.read (supplied [0x10#8, 0x00#8]).input 0 = some 0x10#8 ∧
      Cells.read (supplied [0x10#8, 0x00#8]).input 1 = some 0x00#8 ∧
      (0x10#8).toNat * 16 + (0x00#8).toNat / 16 = 256) := by decide

theorem test_witness_SessionStartForgetsThePast : ∃ s s' : State,
    s ≠ s' ∧ s.state ≠ .decoding ∧ s'.state ≠ .decoding ∧ Supplied s.input 2 ∧ s'.input = s.input ∧ s'.rst = s.rst ∧
      s'.start = s.start ∧ s'.inLen = s.inLen :=
  ⟨supplied [0x04#8, 0x10#8],
    { supplied [0x04#8, 0x10#8] with
      state := .failed, err := .invalidCode, prev := 7#12, loPend := true, trunc := true, output := [1#8] },
    by decide, nofun, nofun, by unfold Supplied; decide, rfl, rfl, rfl, rfl⟩

theorem test_witness_StepRunsDecodedRows : ∃ u,
    p1.rst = false ∧ p1.state = .decoding ∧ p1.fetch = .ok (.ncPair1 0x42#8) ∧
      exec (.ncPair1 0x42#8) p1 = .next u ∧ u.ret = .fetched 66#13 ∧ u.classify 66#13 = .ok (.eKnown 66#12) :=
  ⟨_, rfl, rfl, rfl, rfl, rfl, rfl⟩

theorem test_witness_StartStepRunsFirstRows : ∃ s u : State,
    s.rst = false ∧ s.state ≠ .decoding ∧ s.start = true ∧
      (s.beginSession s.inLen).fetch = .ok (.ncTail 65#12 15#4) ∧
      exec (.ncTail 65#12 15#4) (s.beginSession s.inLen) = .next u ∧ u.ret = .fetched 65#13 ∧
      u.classify 65#13 = .ok (.eFirst 65#8) :=
  ⟨State.reset.withFetchWord 16 0x1F04, _, rfl, nofun, rfl, rfl, rfl, rfl, rfl⟩

/-- All five tests of the loop: EOS, bad, stale, equal to `nfi`, below `nfi`. -/
theorem test_witness_LoopTestsInOrder :
    (∃ s u : State, s.rst = false ∧ s.state = .decoding ∧ s.fetch = .ok .ncEos0 ∧ exec .ncEos0 s = .next u ∧
      u.ret = .fetched 4096#13 ∧ (4096#13).toNat ≤ 4096) ∧
    (∃ s u : State, s.rst = false ∧ s.state = .decoding ∧ s.fetch = .ok (.ncPair1 0x42#8) ∧
      exec (.ncPair1 0x42#8) s = .next u ∧ u.ret = .fetched 322#13 ∧ s.nfi.toNat < (322#13).toNat) ∧
    (∃ s u : State, s.rst = false ∧ s.state = .decoding ∧ s.fetch = .ok (.ncPair1 0x42#8) ∧
      exec (.ncPair1 0x42#8) s = .next u ∧ u.ret = .fetched 66#13 ∧ s.nfi.toNat ≤ s.prev.toNat) ∧
    (∃ s u : State, s.rst = false ∧ s.state = .decoding ∧ s.fetch = .ok (.ncPair1 0x00#8) ∧
      exec (.ncPair1 0x00#8) s = .next u ∧ u.ret = .fetched 256#13 ∧ (256#13).toNat = s.nfi.toNat) ∧
    (∃ u : State, p1.rst = false ∧ p1.state = .decoding ∧ p1.fetch = .ok (.ncPair1 0x42#8) ∧
      exec (.ncPair1 0x42#8) p1 = .next u ∧ u.ret = .fetched 66#13 ∧ (66#13).toNat < p1.nfi.toNat) :=
  ⟨⟨{ p1 with pos := 6, loPend := false }, _, rfl, rfl, rfl, rfl, rfl, by decide⟩,
    ⟨{ p1 with loNib := 1#4 }, _, rfl, rfl, rfl, rfl, rfl, by decide⟩,
    ⟨{ p1 with prev := 4095#12 }, _, rfl, rfl, rfl, rfl, rfl, by decide⟩,
    ⟨{ p1 with loNib := 1#4, input := [(2, 0x00#8)] }, _, rfl, rfl, rfl, rfl, rfl, by decide⟩,
    ⟨_, rfl, rfl, rfl, rfl, rfl, by decide⟩⟩

theorem test_witness_HardwareResetOverrides :
    (∃ s : State, s.rst = true ∧ s.state = .decoding) ∧ (∃ (p : PortIn) (q : PortState), p.rst = true ∧ q.busy = true) :=
  ⟨⟨{ p1 with rst := true }, rfl, rfl⟩, ⟨⟨true, false, 0, false, 0#8, false, 0⟩, ⟨p1, none, true, [], [], [], 0⟩, rfl, rfl⟩⟩

theorem test_witness_WaitsChangeNothing :
    (State.reset.rst = false ∧ State.reset.state ≠ .decoding ∧ State.reset.start = false) ∧
    (∃ s : State, s.rst = false ∧ s.state = .decoding ∧
      ∃ j < formBytes s.loPend (s.len - s.pos), Cells.read s.input (s.pos + j) = none) :=
  ⟨by decide, { p1 with input := [] }, rfl, rfl, 0, by decide, rfl⟩

theorem test_witness_StatusOutputsEncoded : ∃ s t : State, s.ended = true ∧ s.fail = false ∧ t.ended = true ∧ t.fail = true :=
  ⟨{ State.reset with state := .finished }, { State.reset with state := .failed }, by decide⟩

theorem test_witness_EveryStepKeepsInvariant : StateInv p1 ∧ ∃ t, step p1 = .next t ∧ t.output = [0x41#8, 0x42#8] :=
  ⟨test_inv_p1, runs (by decide +kernel)⟩

theorem test_witness_StepNeverFaultsOrRefuses : StateInv p1 := test_inv_p1

theorem test_witness_DecodingStepEndsOrConsumes :
    StateInv p1 ∧ p1.rst = false ∧ p1.state = .decoding ∧ Supplied p1.input p1.len :=
  ⟨test_inv_p1, rfl, rfl, by unfold Supplied; decide⟩

/-- An idle core with an input of two bytes and a start command. -/
def starting : State := { supplied [0x04#8, 0x10#8] with start := true, inLen := 2 }

theorem test_inv_starting : StateInv starting where
  posLe := by decide
  pendPos := by decide
  noPendPos := by decide
  liveCursor := by decide
  noDict := by decide
  filled := fun k => by
    show (none : Option (List Byte)).isSome = true ↔ k < 0
    simp
  literals := by intro h; exact absurd h (by decide)
  bounded := by intro k entry _ h; cases h
  finishedAt := by decide
  errFailed := by decide
  errProduced := by decide
  truncAt := by decide
  staleAt := by decide
  curRange := by decide
  dictWf := by decide
  inputWf := by decide

theorem test_witness_SessionEndsWithinBound :
    StateInv starting ∧ starting.rst = false ∧ starting.state ≠ .decoding ∧ starting.start = true ∧
      Supplied starting.input starting.inLen :=
  ⟨test_inv_starting, rfl, nofun, rfl, by unfold Supplied; decide⟩

theorem test_witness_SessionDecodesItsCodes :
    starting.rst = false ∧ starting.state ≠ .decoding ∧ starting.start = true ∧
      starting.inLen = (pack [65#12]).length ∧ starting.input = Memory.ofBytes (pack [65#12]) := by decide

theorem test_witness_OutputOnlyGrows :
    (∃ t, (p1.state = .decoding ∨ p1.rst = true ∨ p1.start = false) ∧ step p1 = .next t) ∧
    (∃ s t : State, s.state ≠ .decoding ∧ s.rst = true ∧ s.start = true ∧ step s = .next t) ∧
    (∃ s t : State, s.state ≠ .decoding ∧ s.rst = false ∧ s.start = false ∧ step s = .next t) := by
  obtain ⟨t, ht⟩ := completes samples_complete.2.2.2.2.2
  exact ⟨⟨t, .inl rfl, ht⟩, ⟨{ starting with rst := true }, _, nofun, rfl, rfl, rfl⟩,
    ⟨{ p1 with state := .finished }, _, nofun, rfl, rfl, rfl⟩⟩

theorem test_witness_FailingStepIsPrecise : ∃ s t : State,
    s.state = .decoding ∧ step s = .next t ∧ t.state = .failed ∧ s.output = [0x41#8] := by
  obtain ⟨t, ht, hf⟩ := runs (r := step { p1 with loNib := 1#4 }) (P := fun t => t.state = .failed) (by decide +kernel)
  exact ⟨_, t, rfl, ht, hf, rfl⟩

theorem test_witness_HostInputsNeverWritten : ∃ t, exec (.ncPair1 0x42#8) p1 = .next t := ⟨_, rfl⟩

theorem test_witness_RegistersWrittenOnlyByTheirRows :
    (∃ t, exec (.ncPair1 0x42#8) p1 = .next t ∧ IsStart (.ncPair1 0x42#8) = false ∧
      IsEmittingClass (.ncPair1 0x42#8) = false ∧ IsEndingClass (.ncPair1 0x42#8) = false) ∧
    (∃ t, exec .eEos p1 = .next t ∧ IsStart .eEos = false ∧ IsEmittingClass .eEos = false) ∧
    (∃ t, exec (.eKnown 66#12) p1 = .next t ∧ IsStart (.eKnown 66#12) = false ∧
      IsEndingClass (.eKnown 66#12) = false) := by
  obtain ⟨t, ht⟩ := completes samples_complete.2.2.2.2.1
  exact ⟨⟨_, rfl, rfl, rfl, rfl⟩, ⟨_, rfl, rfl, rfl⟩, ⟨t, ht, rfl, rfl⟩⟩

/-! ## The port level -/

/-- A cycle in which the host offers a byte and takes one. -/
def offer (b : Byte) : PortIn :=
  { rst := false, start := false, inLen := 0, inValid := true, inData := b, outReady := true, pace := 0 }

/-- A cycle in which the host offers nothing and takes nothing. -/
def silent : PortIn :=
  { rst := false, start := false, inLen := 0, inValid := false, inData := 0#8, outReady := false, pace := 0 }

/-- An idle port-level core with an input. -/
def idlePort (bytes : List Byte) : PortState :=
  { core := supplied bytes, landing := none, busy := false, taken := [], pending := [], sent := [], delay := 0 }

theorem test_inv_idlePort : PortInv (idlePort [0x04#8, 0x10#8]) where
  outSplit := by decide
  takenLe := by decide
  takenIs := by decide
  idle := by decide
  running := by decide
  settled := by decide
  landed := fun t h => by rw [show PortState.landing _ = none from rfl] at h; cases h

/-- In a session of length 2, nothing transferred yet. -/
def busyPort : PortState := (idlePort [0x04#8, 0x10#8]).accept 2 0

theorem test_inv_busyPort : PortInv busyPort where
  outSplit := by decide
  takenLe := by decide
  takenIs := nofun
  idle := by decide
  running := by decide
  settled := by decide
  landed := fun t h => by rw [show PortState.landing _ = none from rfl] at h; cases h

theorem test_live_busyPort : PortLive busyPort where
  machine := by
    rintro (h | h)
    · cases h
    · exact absurd rfl h
  fresh := fun _ _ => rfl
  inputWf := by decide

/-- In the loop, one byte emitted by the first code and not yet transferred: the registers still show Start. -/
def owingPort : PortState :=
  { core := { p1 with state := .start, cur := 0#13, prev := 0#12, output := [] }, landing := some p1, busy := true
    taken := [], pending := [0x41#8], sent := [], delay := 0 }

theorem owing_handled : handleFetched owingPort.core = .next p1 := by
  obtain ⟨t, ht, rfl⟩ := runs (r := handleFetched owingPort.core) (P := fun t => t = p1) (by decide +kernel)
  exact ht

theorem test_inv_owingPort : PortInv owingPort where
  outSplit := by decide
  takenLe := by decide
  takenIs := nofun
  idle := by decide
  running := by decide
  settled := by decide
  landed := fun t h => by
    cases h
    exact ⟨rfl, rfl, nofun, owing_handled, rfl⟩

theorem test_live_owingPort : PortLive owingPort where
  machine := fun _ => test_inv_p1
  fresh := fun _ h => by cases h
  inputWf := by decide

/-- A session of length 0, about to end. -/
def emptyPort : PortState := (idlePort []).accept 0 0

theorem test_inv_emptyPort : PortInv emptyPort where
  outSplit := by decide
  takenLe := by decide
  takenIs := nofun
  idle := by decide
  running := by decide
  settled := by decide
  landed := fun t h => by rw [show PortState.landing _ = none from rfl] at h; cases h

theorem test_live_emptyPort : PortLive emptyPort where
  machine := by
    rintro (h | h)
    · cases h
    · exact absurd rfl h
  fresh := fun _ _ => rfl
  inputWf := by decide

/-- X4 on the ports, `0F F0`: after two input transfers and one more cycle the byte FF is presented and the host still sees Start
(R65 e); when the sink has taken it the host sees Decoding. -/
theorem test_port_session :
    (((idlePort [0x0F#8, 0xF0#8]).accept 2 0).cycles [offer 0x0F#8, offer 0xF0#8, silent]).pending = [0xFF#8] ∧
    ((((idlePort [0x0F#8, 0xF0#8]).accept 2 0).cycles [offer 0x0F#8, offer 0xF0#8, silent]).outputs silent).state = 0#2 ∧
    ((((idlePort [0x0F#8, 0xF0#8]).accept 2 0).cycles
      [offer 0x0F#8, offer 0xF0#8, silent, offer 0x00#8]).outputs silent).state = 1#2 := by decide +kernel

theorem test_witness_PortCycleRefinesCodeStep : PortInv busyPort ∧ PortInv owingPort :=
  ⟨test_inv_busyPort, test_inv_owingPort⟩

theorem test_witness_PortCycleKeepsInvariant :
    PortInv busyPort ∧ PortLive busyPort ∧ busyPort.inReady (offer 0x04#8) = true ∧
      (offer 0x04#8).inValid = true ∧ HonestCycle (offer 0x04#8) busyPort :=
  ⟨test_inv_busyPort, test_live_busyPort, by decide, rfl, fun _ _ => rfl⟩

theorem test_witness_PortSessionFollowsCodeRun : ∃ ps : List PortIn,
    PortInv (idlePort [0x04#8, 0x10#8]) ∧ (idlePort [0x04#8, 0x10#8]).busy = false ∧
      (idlePort [0x04#8, 0x10#8]).core.rst = false ∧ (idlePort [0x04#8, 0x10#8]).core.start = false ∧
      (∀ p ∈ ps, p.rst = false ∧ p.start = false) ∧
      (∀ n p, ps[n]? = some p →
        HonestCycle p (((idlePort [0x04#8, 0x10#8]).accept 2 0).cycles (ps.take n))) ∧ ps.length = 3 := by
  refine ⟨[offer 0x04#8, offer 0x10#8, silent], test_inv_idlePort, rfl, rfl, rfl, by decide, ?_, rfl⟩
  intro n p h
  match n, h with
  | 0, h => cases h; exact fun _ _ => rfl
  | 1, h => cases h; exact fun _ _ => rfl
  | 2, h => cases h; intro _ hv; cases hv
  | n + 3, h => simp at h

/-- The session's end, and the change from Start to Decoding. -/
theorem test_witness_PortStatusAfterOutput :
    (PortInv emptyPort ∧ HonestCycle silent emptyPort ∧ (emptyPort.cycle silent).core.ended = true) ∧
    (PortInv owingPort ∧ HonestCycle (offer 0x42#8) owingPort ∧
      (owingPort.cycle (offer 0x42#8)).core.state ≠ owingPort.core.state) :=
  ⟨⟨test_inv_emptyPort, fun _ h => (by cases h), by decide +kernel⟩,
    ⟨test_inv_owingPort, fun h => (by cases h), by decide +kernel⟩⟩

/-- The four handshake clauses, and the three waits. -/
theorem test_witness_PortHandshakeRules :
    (PortInv busyPort ∧ busyPort.inReady (offer 0x04#8) = true) ∧
    (PortInv owingPort ∧ ({ offer 0x04#8 with rst := true } : PortIn).rst = true) ∧
    (PortInv owingPort ∧ owingPort.outValid silent = true ∧ silent.outReady = false) ∧
    (PortInv owingPort ∧ owingPort.outValid (offer 0x42#8) = true ∧ owingPort.pending = 0x41#8 :: [] ∧
      (offer 0x42#8).outReady = true) ∧
    (PortLive busyPort ∧ silent.rst = false ∧ busyPort.inReady silent = true ∧ silent.inValid = false) ∧
    (PortLive owingPort ∧ owingPort.outValid silent = true) ∧
    ((idlePort [0x04#8, 0x10#8]).busy = false ∧ silent.start = false) :=
  ⟨⟨test_inv_busyPort, by decide⟩, ⟨test_inv_owingPort, rfl⟩, ⟨test_inv_owingPort, by decide, rfl⟩,
    ⟨test_inv_owingPort, by decide, rfl, rfl⟩, ⟨test_live_busyPort, rfl, by decide, rfl⟩,
    ⟨test_live_owingPort, by decide⟩, ⟨rfl, rfl⟩⟩

/-- A cycle in which the host offers nothing and takes a byte. -/
def listening : PortIn := { silent with outReady := true }

/-- A host that supplies `04 10` and then takes what comes. -/
def hostCycle (n : Nat) : PortIn := if n = 0 then offer 0x04#8 else if n = 1 then offer 0x10#8 else listening

/-- The five cycles of the session (two bytes in, the form, one byte out, the end): when the core asks, that it gets the byte of `IN`,
and that it is idle after them. -/
theorem host_session :
    (∀ k < 5, (busyPort.cycles ((List.range k).map hostCycle)).inReady (hostCycle k) = true → k < 2) ∧
    (∀ n < 2, Cells.read (busyPort.cycles ((List.range n).map hostCycle)).core.input
      ((busyPort.cycles ((List.range n).map hostCycle)).core.pos +
        (busyPort.cycles ((List.range n).map hostCycle)).taken.length) = some (hostCycle n).inData) ∧
    (busyPort.cycles ((List.range 5).map hostCycle)).busy = false := by decide +kernel

theorem host_asked {n : Nat} (h : (busyPort.cycles ((List.range n).map hostCycle)).inReady (hostCycle n) = true) :
    n < 2 := by
  by_cases hn : n < 5
  · exact host_session.1 n hn h
  · rw [PortState.cycles_idle host_session.2.2 (fun n hn => ?_) (Nat.le_of_not_lt hn)] at h
    · simp only [PortState.inReady, host_session.2.2, Bool.and_false, Bool.false_and, Bool.false_eq_true] at h
    · rw [hostCycle, if_neg (by omega), if_neg (by omega)]
      exact ⟨rfl, rfl⟩

theorem host_duties : (∀ n, (hostCycle n).rst = false) ∧ (∀ n, (hostCycle n).outReady = true) ∧
    (∀ n < 2, (hostCycle n).inValid = true) := by
  refine ⟨fun n => ?_, fun n => ?_, by decide⟩ <;> (unfold hostCycle; split; rfl; split <;> rfl)

theorem test_witness_PortSessionEndsUnderHostDuties :
    PortInv busyPort ∧ PortLive busyPort ∧ busyPort.busy = true ∧ (∀ n, (hostCycle n).rst = false) ∧
      (∀ n, HonestCycle (hostCycle n) (busyPort.cycles ((List.range n).map hostCycle))) ∧
      (∀ n, (busyPort.cycles ((List.range n).map hostCycle)).inReady (hostCycle n) = true →
        ∃ m ≥ n, (hostCycle m).inValid = true) ∧
      (∀ n, (busyPort.cycles ((List.range n).map hostCycle)).outValid (hostCycle n) = true →
        ∃ m ≥ n, (hostCycle m).outReady = true) :=
  ⟨test_inv_busyPort, test_live_busyPort, by decide, host_duties.1, fun n h _ => host_session.2.1 n (host_asked h),
    fun n h => ⟨n, Nat.le_refl n, host_duties.2.2 n (host_asked h)⟩,
    fun n _ => ⟨n, Nat.le_refl n, host_duties.2.1 n⟩⟩

end Sys2Proof.Tests
end

/-! ## What a row that runs leaves unchanged -/

section

namespace Sys2Proof.Machine

variable {s t : State} {i : Instr}

/-- A row other than `S.START` is a form, a class or a dictionary operation. -/
theorem row_kinds (h : IsStart i = false) :
    IsFetchForm i = true ∨ IsEndingClass i = true ∨ IsEmittingClass i = true ∨ IsDictOp i = true := by
  cases i with
  | sStart n => cases h
  | _ => simp [IsFetchForm, IsEndingClass, IsEmittingClass, IsDictOp]

/-- A form writes the reader's registers and the returned value only (R110). -/
theorem fetchForm_frame (hi : IsFetchForm i = true) (h : exec i s = .next t) :
    t = { s with pos := t.pos, loPend := t.loPend, loNib := t.loNib, trunc := t.trunc, ret := t.ret } := by
  cases i with
  | ncPair0 a n => obtain ⟨-, rfl⟩ := execNcPair0_eq_next.1 h; rfl
  | ncPair1 b => obtain ⟨-, rfl⟩ := execNcPair1_eq_next.1 h; rfl
  | ncTail a p => obtain ⟨-, rfl⟩ := (execNcTail_eq_next (p := p)).1 h; rfl
  | ncEos0 => obtain ⟨-, rfl⟩ := execNcEos0_eq_next.1 h; rfl
  | ncEos1 x => obtain ⟨-, rfl⟩ := (execNcEos1_eq_next (x := x)).1 h; rfl
  | ncEosn => obtain ⟨-, rfl⟩ := execNcEosn_eq_next.1 h; rfl
  | _ => cases hi

/-- A row with bytes in the stream consumes exactly those, which the input still held, and keeps `len` (R94, R98). -/
theorem encoded_row_pos {bytes : List Byte} (he : encode i = some (.inl bytes)) (h : exec i s = .next t) :
    t.pos = s.pos + bytes.length ∧ t.len = s.len ∧ bytes.length ≤ s.rem := by
  cases i with
  | ncPair0 a n =>
    obtain ⟨⟨-, hr⟩, rfl⟩ := execNcPair0_eq_next.1 h; cases he; exact ⟨rfl, rfl, Nat.le_of_succ_le hr⟩
  | ncPair1 b =>
    obtain ⟨⟨-, hr⟩, rfl⟩ := execNcPair1_eq_next.1 h; cases he; exact ⟨rfl, rfl, hr⟩
  | ncTail a p =>
    obtain ⟨⟨-, hr⟩, rfl⟩ := (execNcTail_eq_next (p := p)).1 h; cases he; exact ⟨rfl, rfl, hr.ge⟩
  | ncEos0 =>
    obtain ⟨-, rfl⟩ := execNcEos0_eq_next.1 h; cases he; exact ⟨rfl, rfl, Nat.zero_le _⟩
  | ncEos1 x =>
    obtain ⟨⟨-, hr⟩, rfl⟩ := (execNcEos1_eq_next (x := x)).1 h; cases he; exact ⟨rfl, rfl, hr.ge⟩
  | ncEosn =>
    obtain ⟨-, rfl⟩ := execNcEosn_eq_next.1 h; cases he; exact ⟨rfl, rfl, Nat.zero_le _⟩
  | _ => cases he

/-- A class that ends the session writes `cur`, `err` and `state` and leaves no dictionary (R154, R217). -/
theorem endingClass_frame (hi : IsEndingClass i = true) (h : exec i s = .next t) :
    t = { s with cur := t.cur, dict := [], nfi := 0#13, err := t.err, state := t.state } := by
  cases i with
  | eFirstBad f => obtain ⟨-, rfl⟩ := execEFirstBad_eq_next.1 h; rfl
  | eEos => obtain ⟨-, rfl⟩ := execEEos_eq_next.1 h; rfl
  | eBad c => obtain ⟨-, rfl⟩ := execEBad_eq_next.1 h; rfl
  | eStale c => obtain ⟨-, rfl⟩ := execEStale_eq_next.1 h; rfl
  | _ => cases hi

/-- The two ways an emitting class runs: `E.FIRST` on a looked up entry, or Commit of a candidate (R151, R159). -/
theorem emittingClass_cases (hi : IsEmittingClass i = true) (h : exec i s = .next t) :
    (∃ f bytes, t = { ((s.take f).emit bytes).retainCode with state := .decoding }) ∨
      ∃ f entry, (s.take f).commit entry = .next t := by
  cases i with
  | eFirst b => obtain ⟨-, bytes, -, rfl⟩ := execEFirst_eq_next.1 h; exact .inl ⟨_, bytes, rfl⟩
  | eKwkwk c => obtain ⟨-, _, _, -, hc⟩ := execEKwkwk_eq_next.1 h; exact .inr ⟨_, _, hc⟩
  | eKnown c => obtain ⟨-, _, _, _, -, -, hc⟩ := execEKnown_eq_next.1 h; exact .inr ⟨_, _, hc⟩
  | _ => cases hi

/-- Commit writes `prev`, the output and the dictionary only (R159). -/
theorem State.commit_frame {entry : List Byte} (h : s.commit entry = .next t) :
    t = { s with prev := t.prev, dict := t.dict, nfi := t.nfi, output := t.output } := by
  obtain ⟨-, bytes, -, rfl⟩ := State.commit_eq_next.1 h
  unfold State.resetIfFull
  split <;> rfl

/-- An emitting class writes `cur`, `prev`, the output, `state` and the dictionary only (R151, R157 to R159). -/
theorem emittingClass_frame (hi : IsEmittingClass i = true) (h : exec i s = .next t) :
    t = { s with
      cur := t.cur, prev := t.prev, dict := t.dict, nfi := t.nfi, output := t.output, state := t.state } := by
  rcases emittingClass_cases hi h with ⟨f, bytes, rfl⟩ | ⟨f, entry, hc⟩
  · rfl
  · rw [State.commit_frame hc]; rfl

/-- A dictionary operation writes the dictionary and the returned value only (R130 to R134). -/
theorem dictOp_frame (hi : IsDictOp i = true) (h : exec i s = .next t) :
    t = { s with dict := t.dict, nfi := t.nfi, ret := t.ret } := by
  cases i with
  | dInit => cases h; rfl
  | dGet c => obtain ⟨_, -, rfl⟩ := execDGet_eq_next.1 h; rfl
  | dAppend entry => obtain ⟨-, rfl⟩ := execDAppend_eq_next.1 h; rfl
  | dReset => cases h; rfl
  | dTeardown => cases h; rfl
  | _ => cases hi

/-- An emitting class stores at `nfi` and resets slots from 256 up, so it writes no literal slot (R34). -/
theorem emittingClass_keeps_literal_slots (hi : IsEmittingClass i = true) (h : exec i s = .next t)
    (hn : 256 ≤ s.nfi.toNat) {k : Nat} (hk : k < 256) : Cells.read t.dict k = Cells.read s.dict k := by
  rcases emittingClass_cases hi h with ⟨f, bytes, rfl⟩ | ⟨f, entry, hc⟩
  · rfl
  · obtain ⟨⟨-, hle, -⟩, bytes, -, rfl⟩ := State.commit_eq_next.1 hc
    rw [State.read_commit (State.take_nfi s f ▸ rfl) (State.take_dict s f) hle, if_neg (by omega),
      if_neg (by rw [State.take_nfi]; omega)]

/-- A dictionary operation but `D.INIT` writes no literal slot, or is the teardown (R132 to R134). -/
theorem dictOp_keeps_literal_slots (hi : IsDictOp i = true) (hd : i ≠ .dInit) (h : exec i s = .next t)
    (hn : 256 ≤ s.nfi.toNat) :
    (t.nfi = 0#13 ∧ t.dict = []) ∨ ∀ k < 256, Cells.read t.dict k = Cells.read s.dict k := by
  cases i with
  | dInit => exact absurd rfl hd
  | dGet c => obtain ⟨_, -, rfl⟩ := execDGet_eq_next.1 h; exact .inr fun _ _ => rfl
  | dAppend entry =>
    obtain ⟨-, rfl⟩ := execDAppend_eq_next.1 h
    exact .inr fun k hk => State.read_dictStore_other (by omega)
  | dReset => cases h; exact .inr fun k hk => by rw [State.read_dictReset, if_pos hk]
  | dTeardown => cases h; exact .inl ⟨rfl, rfl⟩
  | _ => cases hi

/-- What the host owns of the state: the input and the levels. -/
def State.hostPart (s : State) : Memory × Bool × Bool × Nat := (s.input, s.rst, s.start, s.inLen)

theorem fetchForm_hostPart (hi : IsFetchForm i = true) (h : exec i s = .next t) : t.hostPart = s.hostPart := by
  rw [fetchForm_frame hi h]; rfl

theorem class_hostPart (hi : IsEndingClass i = true ∨ IsEmittingClass i = true) (h : exec i s = .next t) :
    t.hostPart = s.hostPart := by
  rcases hi with hi | hi
  · rw [endingClass_frame hi h]; rfl
  · rw [emittingClass_frame hi h]; rfl

/-- `S.START` runs a form and a class of a fresh session, or changes nothing. -/
theorem execSStart_hostPart {n : Nat} (h : execSStart n s = .next t) : t.hostPart = s.hostPart := by
  rcases execSStart_eq_next h with rfl | ⟨-, i, u, f, j, hf, hu, -, hj, ht⟩
  · rfl
  · calc t.hostPart = u.hostPart := class_hostPart (State.classify_isClass hj) ht
      _ = (s.beginSession n).hostPart := fetchForm_hostPart (State.fetch_selected hf).2 hu
      _ = s.hostPart := rfl

/-- No row writes what the host owns (R35, R191). -/
theorem exec_hostPart (h : exec i s = .next t) : t.hostPart = s.hostPart := by
  cases hs : IsStart i with
  | true =>
    cases i with
    | sStart n => exact execSStart_hostPart h
    | _ => cases hs
  | false =>
    rcases row_kinds hs with hk | hk | hk | hk
    · exact fetchForm_hostPart hk h
    · exact class_hostPart (.inl hk) h
    · exact class_hostPart (.inr hk) h
    · rw [dictOp_frame hk h]; rfl

end Sys2Proof.Machine

end

/-! ## The parts of the machine's invariant

`StateInv` speaks of states between steps. Between the fetch and the class of one code, and in a fresh session, the same facts hold
of the reader and of the dictionary; they are stated here of the values alone, so that an operation that leaves the values keeps
the fact. -/

section

namespace Sys2Proof

open Machine

/-- The reader's registers (R40 items 1, 2 and 7). -/
structure ReaderInv (pos len : Nat) (loPend trunc : Bool) : Prop where
  posLe : pos ≤ len
  pendPos : loPend = true → pos < len ∧ pos % 3 = 2
  noPendPos : loPend = false → pos % 3 = 0 ∨ pos = len
  truncAt : trunc = true → len % 3 = 1 ∧ pos = len

namespace ReaderInv

variable {pos len : Nat} {loPend trunc : Bool}

theorem fresh (len : Nat) : ReaderInv 0 len false false :=
  ⟨Nat.zero_le _, by simp, fun _ => .inl rfl, by simp⟩

theorem pair0 (h : ReaderInv pos len false trunc) (hr : 3 ≤ len - pos) : ReaderInv (pos + 2) len true trunc where
  posLe := by omega
  pendPos _ := by have := h.noPendPos rfl; omega
  noPendPos hp := by cases hp
  truncAt ht := by have := h.truncAt ht; omega

theorem pair1 (h : ReaderInv pos len true trunc) : ReaderInv (pos + 1) len false trunc where
  posLe := by have := h.pendPos rfl; omega
  pendPos hp := by cases hp
  noPendPos _ := by have := h.pendPos rfl; omega
  truncAt ht := by have := h.truncAt ht; have := h.pendPos rfl; omega

theorem tail (h : ReaderInv pos len false trunc) (hr : len - pos = 2) : ReaderInv (pos + 2) len false trunc where
  posLe := by omega
  pendPos hp := by cases hp
  noPendPos _ := by omega
  truncAt ht := by have := h.truncAt ht; omega

theorem dangling (h : ReaderInv pos len false trunc) (hr : len - pos = 1) : ReaderInv (pos + 1) len false true where
  posLe := by omega
  pendPos hp := by cases hp
  noPendPos _ := by omega
  truncAt _ := by have := h.noPendPos rfl; omega

end ReaderInv

/-- The dictionary's slots against the cursor: DI1, DI2 and R40 item 9, in canonical form. -/
structure DictInv (d : Dict) (n : Nat) : Prop where
  filled : ∀ k, (Cells.read d k).isSome = true ↔ k < n
  literals : 256 ≤ n → ∀ k < 256, Cells.read d k = some [BitVec.ofNat 8 k]
  bounded : ∀ k entry, 256 ≤ k → Cells.read d k = some entry → 2 ≤ entry.length ∧ entry.length ≤ k - 254
  wf : Cells.wf d

namespace DictInv

variable {d : Dict} {n : Nat}

theorem empty : DictInv [] 0 := ⟨by simp, by omega, by simp, List.Pairwise.nil⟩

theorem init : DictInv Dict.literals 256 where
  filled k := by rw [Dict.read_literals]; split <;> simp [*]
  literals _ k hk := by rw [Dict.read_literals, if_pos hk]
  bounded k entry hk h := by rw [Dict.read_literals, if_neg (by omega)] at h; cases h
  wf := Dict.wf_literals

/-- An append at the cursor (R132, R135). -/
theorem append (h : DictInv d n) (hn : 256 ≤ n) {entry : List Byte} (h2 : 2 ≤ entry.length)
    (hl : entry.length ≤ n - 254) : DictInv (Cells.write d n entry) (n + 1) where
  filled k := by
    by_cases hk : k = n
    · subst hk; simp
    · rw [Cells.read_write_other _ _ hk, h.filled]; omega
  literals _ k hk := by rw [Cells.read_write_other _ _ (by omega), h.literals hn k hk]
  bounded k e hk he := by
    by_cases hkn : k = n
    · subst hkn; cases (Cells.read_write_same d k entry).symm.trans he; exact ⟨h2, hl⟩
    · exact h.bounded k e hk (Cells.read_write_other d entry hkn ▸ he)
  wf := Cells.wf_write h.wf n entry

/-- A reset of a table that holds the literals (R133, R135). -/
theorem reset (h : DictInv d n) (hn : 256 ≤ n) : DictInv (Cells.keepBelow d 256) 256 where
  filled k := by
    rw [Cells.read_keepBelow]
    split
    · rw [h.filled]; omega
    · simpa using by omega
  literals _ k hk := by rw [Cells.read_keepBelow, if_pos hk, h.literals hn k hk]
  bounded k e hk he := by rw [Cells.read_keepBelow, if_neg (by omega)] at he; cases he
  wf := Cells.wf_keepBelow h.wf 256

/-- Below the cursor every slot holds an entry of at least one byte, short enough to be extended (R32, R40 item 9). -/
theorem read_lt (h : DictInv d n) (hn : 256 ≤ n) {k : Nat} (hk : k < n) :
    ∃ b rest, Cells.read d k = some (b :: rest) ∧ rest.length + 256 ≤ n := by
  by_cases hlit : k < 256
  · exact ⟨_, [], h.literals hn k hlit, hn⟩
  · obtain ⟨entry, he⟩ := Option.isSome_iff_exists.1 ((h.filled k).2 hk)
    obtain ⟨h2, hl⟩ := h.bounded k entry (by omega) he
    match entry, h2, hl with
    | b :: rest, _, hl => exact ⟨b, rest, he, by rw [List.length_cons] at hl; omega⟩

end DictInv

/-- A session with a live dictionary, before or after its first code: what holds before and after every fetch, also of the fresh
session that `S.START` begins (R180 lines 1 to 4). -/
structure LiveInv (s : State) : Prop where
  reader : ReaderInv s.pos s.len s.loPend s.trunc
  dict : DictInv s.dict s.nfi.toNat
  cursor : 256 ≤ s.nfi.toNat ∧ s.nfi.toNat ≤ 4095
  /-- Before the first code, and whenever `prev` is stale, the cursor stands at its first value (R87, R40 item 8). -/
  phase : (s.state = .start ∧ s.nfi = Config.firstFree) ∨
    (s.state = .decoding ∧ (s.nfi ≤ zext13 s.prev → s.nfi = Config.firstFree))
  noErr : s.err = .none
  curRange : s.cur ≤ Config.eos
  inputWf : Memory.wf s.input

variable {s t u : State}

/-- Between steps the invariant of a session in progress is `StateInv`. -/
theorem LiveInv.stateInv (h : LiveInv s) (hs : s.state = .decoding) : StateInv s where
  posLe := h.reader.posLe
  pendPos := h.reader.pendPos
  noPendPos := h.reader.noPendPos
  liveCursor _ := h.cursor
  noDict hd := absurd hs hd
  filled := h.dict.filled
  literals := h.dict.literals
  bounded := h.dict.bounded
  finishedAt hf := by rw [hs] at hf; cases hf
  errFailed := by simp [h.noErr, hs]
  errProduced := by simp [h.noErr]
  truncAt := h.reader.truncAt
  staleAt _ := by
    rcases h.phase with ⟨hp, -⟩ | ⟨-, hp⟩
    · rw [hs] at hp; cases hp
    · exact hp
  curRange := h.curRange
  dictWf := h.dict.wf
  inputWf := h.inputWf

theorem StateInv.liveInv (h : StateInv s) (hs : s.state = .decoding) : LiveInv s where
  reader := ⟨h.posLe, h.pendPos, h.noPendPos, h.truncAt⟩
  dict := ⟨h.filled, h.literals, h.bounded, h.dictWf⟩
  cursor := h.liveCursor hs
  phase := .inr ⟨hs, h.staleAt hs⟩
  noErr := by
    by_contra he
    have := h.errFailed.1 he
    rw [hs] at this; cases this
  curRange := h.curRange
  inputWf := h.inputWf

/-- The fresh session that `S.START` begins (R180). -/
theorem liveInv_beginSession (h : Memory.wf s.input) (len : Nat) : LiveInv (s.beginSession len) where
  reader := ReaderInv.fresh len
  dict := DictInv.init
  cursor := by simp
  phase := .inl ⟨rfl, rfl⟩
  noErr := rfl
  curRange := by simp
  inputWf := h

/-- `StateInv` of a state without a dictionary (R40 items 4 to 6). -/
theorem stateInv_of_noDict (hr : ReaderInv s.pos s.len s.loPend s.trunc) (hn : s.nfi = 0#13) (hd : s.dict = [])
    (hs : s.state ≠ .decoding)
    (hf : s.state = .finished → s.pos = s.len ∧ s.loPend = false ∧ s.cur = Config.eos ∧ s.err = .none)
    (he : s.err ≠ .none ↔ s.state = .failed) (hp : s.err ≠ .incompleteStream)
    (hc : s.cur ≤ Config.eos) (hi : Memory.wf s.input) : StateInv s :=
  have dict : DictInv s.dict s.nfi.toNat := by rw [hn, hd]; exact DictInv.empty
  { posLe := hr.posLe
    pendPos := hr.pendPos
    noPendPos := hr.noPendPos
    liveCursor := fun h => absurd h hs
    noDict := fun _ => ⟨hn, hd⟩
    filled := dict.filled
    literals := dict.literals
    bounded := dict.bounded
    finishedAt := hf
    errFailed := he
    errProduced := hp
    truncAt := hr.truncAt
    staleAt := fun h => absurd h hs
    curRange := hc
    dictWf := dict.wf
    inputWf := hi }

/-- Hardware reset meets the invariant from every state with a canonical input (R39, R240). -/
theorem stateInv_hardReset (h : Memory.wf s.input) : StateInv s.hardReset :=
  stateInv_of_noDict (ReaderInv.fresh 0) rfl rfl (by simp) (by simp) (by simp) (by simp) (by simp) h

end Sys2Proof

end

/-! ## One code keeps the invariant -/

section

namespace Sys2Proof

open Machine

variable {s t u : State} {f : Fetched} {c : Code} {e : ErrKind}

/-! ### The fetch -/

theorem zext13_le_eos (c : Code) : zext13 c ≤ Config.eos := by
  rw [BitVec.le_def, zext13_toNat]
  exact c.isLt.le

/-- A code is never the sentinel (R86). -/
theorem zext13_ne_eos (c : Code) : zext13 c ≠ Config.eos := by
  intro h
  have hc : c.toNat = 4096 := zext13_toNat c ▸ congrArg BitVec.toNat h
  omega

/-- The stream has ended: nothing is left to fetch and no nibble is pending (R40 item 5). -/
def InputEnded (s : State) : Prop := s.pos = s.len ∧ s.loPend = false

/-- The selected form runs, keeps the session's invariant and returns a code, or the sentinel at the end of the input. `NC.EOSN`
is never selected: a pending nibble has a byte after it. -/
theorem LiveInv.form_runs {i : Instr} (h : LiveInv s) (hi : FormSelected s.loPend s.rem i) :
    ∃ u f, exec i s = .next u ∧ u.ret = .fetched f ∧ f.toNat ≤ 4096 ∧ LiveInv u ∧
      (f = Config.eos → InputEnded u) := by
  obtain ⟨u, f, hu, hf, hle⟩ := exec_of_selected hi
  refine ⟨u, f, hu, hf, hle, ?_⟩
  have code : ∀ c : Code, u.ret = .fetched (zext13 c) → f ≠ Config.eos := fun c hc he =>
    zext13_ne_eos c ((Ret.fetched.inj (hc.symm.trans hf)).trans he)
  have hr := h.reader
  cases i with
  | ncPair0 a n =>
    obtain ⟨⟨hp, hrem⟩, rfl⟩ := execNcPair0_eq_next.1 hu
    rw [hp] at hr
    exact ⟨{ h with reader := hr.pair0 hrem }, fun he => absurd he (code a rfl)⟩
  | ncPair1 b =>
    obtain ⟨⟨hp, hrem⟩, rfl⟩ := execNcPair1_eq_next.1 hu
    rw [hp] at hr
    exact ⟨{ h with reader := hr.pair1 }, fun he => absurd he (code _ rfl)⟩
  | ncTail a p =>
    obtain ⟨⟨hp, hrem⟩, rfl⟩ := (execNcTail_eq_next (p := p)).1 hu
    rw [hp] at hr
    exact ⟨{ h with reader := by simpa [hp] using hr.tail hrem }, fun he => absurd he (code a rfl)⟩
  | ncEos0 =>
    obtain ⟨⟨hp, hrem⟩, rfl⟩ := execNcEos0_eq_next.1 hu
    have hlen : s.pos = s.len := by have := hr.posLe; unfold State.rem at hrem; omega
    exact ⟨{ h with }, fun _ => ⟨hlen, hp⟩⟩
  | ncEos1 x =>
    obtain ⟨⟨hp, hrem⟩, rfl⟩ := (execNcEos1_eq_next (x := x)).1 hu
    rw [hp] at hr
    have hlen : s.pos + 1 = s.len := by unfold State.rem at hrem; omega
    exact ⟨{ h with reader := by simpa [hp] using hr.dangling hrem }, fun _ => ⟨hlen, hp⟩⟩
  | ncEosn =>
    obtain ⟨hp, hrem⟩ := hi
    have := hr.pendPos hp
    unfold State.rem at hrem
    omega
  | _ => exact hi.elim

/-! ### The class -/

/-- A lookup below the cursor gives an entry that can still be extended. -/
theorem LiveInv.dictGet (h : LiveInv s) (hc : c.toNat < s.nfi.toNat) :
    ∃ b rest, s.dictGet c = some (b :: rest) ∧ rest.length + 256 ≤ s.nfi.toNat := by
  rw [State.dictGet_eq hc]
  exact h.dict.read_lt h.cursor.1 hc

/-- Taking an error ends the session in a state that meets the invariant (R217). -/
theorem LiveInv.stateInv_raise (h : LiveInv s) (hf : f ≤ Config.eos) (he : e ≠ .none) (hp : e ≠ .incompleteStream) :
    StateInv ((s.take f).raise e) :=
  stateInv_of_noDict h.reader rfl rfl (by simp) (by simp) (by simpa using he) hp hf h.inputWf

/-- What Commit leaves of the dictionary (R159): the invariant, a cursor below the capacity, and a `prev` below the cursor unless the
table was reset. -/
theorem LiveInv.commit_dict (h : LiveInv s) {entry bytes : List Byte} (hc : c.toNat ≤ s.nfi.toNat)
    (h2 : 2 ≤ entry.length) (hl : entry.length + 254 ≤ s.nfi.toNat)
    (ht : t = (((s.take (zext13 c)).dictStore entry).emit bytes).resetIfFull.retainCode) :
    DictInv t.dict t.nfi.toNat ∧ (256 ≤ t.nfi.toNat ∧ t.nfi.toNat ≤ 4095) ∧
      (t.nfi ≤ zext13 c → t.nfi = Config.firstFree) := by
  obtain ⟨hlo, hhi⟩ := h.cursor
  have happ : DictInv (Cells.write s.dict s.nfi.toNat entry) (s.nfi.toNat + 1) :=
    h.dict.append hlo h2 (by omega)
  by_cases hfull : s.nfi.toNat = 4095
  · obtain ⟨hn, hd⟩ := State.commit_full (s := s.take (zext13 c)) (entry := entry) (bytes := bytes) hfull
    rw [← ht] at hn hd
    rw [hd, hn]
    exact ⟨happ.reset (by omega), by simp, fun _ => rfl⟩
  · obtain ⟨hn, hd⟩ := State.commit_room (s := s.take (zext13 c)) (entry := entry) (bytes := bytes)
      (by rw [State.take_nfi]; omega)
    rw [← ht, State.take_nfi] at hn
    rw [← ht] at hd
    rw [hd, hn]
    refine ⟨happ, by omega, fun hle => ?_⟩
    rw [BitVec.le_def, zext13_toNat] at hle
    omega

/-- Commit of an entry within the bound runs and keeps the invariant (R159): the code committed is at most the cursor, so it has an
entry after the append. -/
theorem LiveInv.commit_runs (h : LiveInv s) (hs : s.state = .decoding) (hc : c.toNat ≤ s.nfi.toNat)
    {entry : List Byte} (h2 : 2 ≤ entry.length) (hl : entry.length + 254 ≤ s.nfi.toNat) :
    ∃ t, (s.take (zext13 c)).commit entry = .next t ∧ StateInv t := by
  obtain ⟨hlo, hhi⟩ := h.cursor
  have hnfi : ((s.take (zext13 c)).dictStore entry).nfi.toNat = s.nfi.toNat + 1 := State.dictStore_nfi_toNat hhi
  obtain ⟨b, rest, hb, -⟩ := (h.dict.append hlo h2 (by omega)).read_lt (by omega) (Nat.lt_succ_of_le hc)
  have hget : ((s.take (zext13 c)).dictStore entry).dictGet (low12 (s.take (zext13 c)).cur) = some (b :: rest) := by
    rw [State.take_cur, low12_zext13, State.dictGet_eq (by omega)]
    exact hb
  obtain ⟨hdict, hcursor, hstale⟩ := h.commit_dict (bytes := b :: rest) hc h2 hl rfl
  refine ⟨_, State.commit_eq_next.2 ⟨⟨hlo, hhi, h2, by omega⟩, _, hget, rfl⟩, LiveInv.stateInv ?_ (by simpa using hs)⟩
  exact
    { reader := by simpa using h.reader
      dict := hdict
      cursor := hcursor
      phase := .inr ⟨by simpa using hs, by simpa using hstale⟩
      noErr := by simpa using h.noErr
      curRange := by simpa using zext13_le_eos c
      inputWf := by simpa using h.inputWf }

/-- A first literal runs and starts the loop (R151). -/
theorem LiveInv.eFirst_runs (h : LiveInv s) (hs : s.state = .start) (hn : s.nfi = Config.firstFree) (b : Byte) :
    ∃ t, exec (.eFirst b) s = .next t ∧ StateInv t := by
  have hb : (low12 (b.setWidth 13)).toNat < s.nfi.toNat := by
    rw [hn, low12_eq, BitVec.toNat_setWidth, BitVec.toNat_ofNat]
    simp; omega
  obtain ⟨x, rest, hget, -⟩ := h.dictGet hb
  refine ⟨_, execEFirst_eq_next.2 ⟨⟨hs, hn⟩, _, hget, rfl⟩, LiveInv.stateInv ?_ rfl⟩
  exact { h with
    phase := .inr ⟨rfl, fun _ => hn⟩
    curRange := by
      show b.setWidth 13 ≤ Config.eos
      rw [BitVec.le_def, BitVec.toNat_setWidth]; simp; omega }

/-- The class of the first value of a session runs (R150 to R152). -/
theorem LiveInv.firstClass_runs (h : LiveInv s) (hs : s.state = .start) (hn : s.nfi = Config.firstFree)
    (hf : f.toNat ≤ 4096) : ∃ j t, s.classify f = .ok j ∧ exec j s = .next t ∧ StateInv t := by
  have hle : f ≤ Config.eos := hf
  rw [State.classify_start hs hn hf]
  by_cases hlit : f < s.nfi
  · rw [if_pos hlit]
    obtain ⟨t, ht⟩ := h.eFirst_runs hs hn (f.setWidth 8)
    exact ⟨_, t, rfl, ht⟩
  · rw [if_neg hlit]
    exact ⟨_, _, rfl, execEFirstBad_eq_next.2 ⟨⟨⟨hs, hn⟩, BitVec.not_lt.1 hlit, hle⟩, rfl⟩,
      h.stateInv_raise hle (by simp) (by simp)⟩

/-- The end of the stream finishes the session (R154). -/
theorem LiveInv.eEos_runs (h : LiveInv s) (hs : s.state = .decoding) (hend : InputEnded s) :
    ∃ t, exec .eEos s = .next t ∧ StateInv t :=
  ⟨_, execEEos_eq_next.2 ⟨hs, rfl⟩,
    stateInv_of_noDict h.reader rfl rfl (by simp) (fun _ => ⟨hend.1, hend.2, rfl, h.noErr⟩)
      (by simp [h.noErr]) (by simp [h.noErr]) (by simp) h.inputWf⟩

/-- A code equal to the cursor runs: its entry is that of `prev`, extended (R158). -/
theorem LiveInv.eKwkwk_runs (h : LiveInv s) (hs : s.state = .decoding) (hc : zext13 c = s.nfi)
    (hp : zext13 s.prev < s.nfi) : ∃ t, exec (.eKwkwk c) s = .next t ∧ StateInv t := by
  obtain ⟨b, rest, hget, hlen⟩ := h.dictGet (c := s.prev) (by rwa [BitVec.lt_def, zext13_toNat] at hp)
  obtain ⟨t, ht, hinv⟩ := h.commit_runs (c := c) (entry := b :: rest ++ [b]) hs (by rw [← hc, zext13_toNat])
    (by simp) (by simp; omega)
  exact ⟨t, execEKwkwk_eq_next.2 ⟨⟨hs, hc, hp⟩, b, rest, hget, ht⟩, hinv⟩

/-- A code below the cursor runs: its candidate entry is that of `prev`, extended (R157). -/
theorem LiveInv.eKnown_runs (h : LiveInv s) (hs : s.state = .decoding) (hc : zext13 c < s.nfi)
    (hp : zext13 s.prev < s.nfi) : ∃ t, exec (.eKnown c) s = .next t ∧ StateInv t := by
  have hcn : c.toNat < s.nfi.toNat := by rwa [BitVec.lt_def, zext13_toNat] at hc
  obtain ⟨a, old, hprev, hlen⟩ := h.dictGet (c := s.prev) (by rwa [BitVec.lt_def, zext13_toNat] at hp)
  obtain ⟨b, rest, hget, -⟩ := h.dictGet hcn
  obtain ⟨t, ht, hinv⟩ := h.commit_runs (c := c) (entry := a :: old ++ [b]) hs hcn.le (by simp) (by simp; omega)
  exact ⟨t, execEKnown_eq_next.2 ⟨⟨hs, hc, hp⟩, _, b, rest, hprev, hget, ht⟩, hinv⟩

/-- The class of a later value runs, by the loop's tests in their order (R153). -/
theorem LiveInv.loopClass_runs (h : LiveInv s) (hs : s.state = .decoding) (hf : f.toNat ≤ 4096)
    (hend : f = Config.eos → InputEnded s) : ∃ j t, s.classify f = .ok j ∧ exec j s = .next t ∧ StateInv t := by
  rw [State.classify_decoding hs hf]
  by_cases heos : f = Config.eos
  · rw [if_pos heos]
    obtain ⟨t, ht⟩ := h.eEos_runs hs (hend heos)
    exact ⟨_, t, rfl, ht⟩
  have hz : zext13 (low12 f) = f :=
    zext13_low12 (lt_of_le_of_ne hf fun he => heos (BitVec.eq_of_toNat_eq he))
  have hle := zext13_le_eos (low12 f)
  rw [if_neg heos]
  by_cases hbad : s.nfi < f
  · rw [if_pos hbad]
    exact ⟨_, _, rfl, execEBad_eq_next.2 ⟨⟨hs, hz.symm ▸ hbad⟩, rfl⟩, h.stateInv_raise hle (by simp) (by simp)⟩
  have hfn : f ≤ s.nfi := BitVec.not_lt.1 hbad
  rw [if_neg hbad]
  by_cases hstale : s.nfi ≤ zext13 s.prev
  · rw [if_pos hstale]
    exact ⟨_, _, rfl, execEStale_eq_next.2 ⟨⟨hs, hz.symm ▸ hfn, hstale⟩, rfl⟩, h.stateInv_raise hle (by simp) (by simp)⟩
  have hprev : zext13 s.prev < s.nfi := BitVec.not_le.1 hstale
  rw [if_neg hstale]
  by_cases heq : f = s.nfi
  · rw [if_pos heq]
    obtain ⟨t, ht⟩ := h.eKwkwk_runs (c := low12 f) hs (hz.trans heq) hprev
    exact ⟨_, t, rfl, ht⟩
  · rw [if_neg heq]
    obtain ⟨t, ht⟩ := h.eKnown_runs (c := low12 f) hs (hz.symm ▸ BitVec.lt_of_le_ne hfn heq) hprev
    exact ⟨_, t, rfl, ht⟩

/-- Every value a fetch returns has a class, and the class runs (R87, R153). -/
theorem LiveInv.class_runs (h : LiveInv s) (hf : f.toNat ≤ 4096) (hend : f = Config.eos → InputEnded s) :
    ∃ j t, s.classify f = .ok j ∧ exec j s = .next t ∧ StateInv t := by
  rcases h.phase with ⟨hs, hn⟩ | ⟨hs, -⟩
  · exact h.firstClass_runs hs hn hf
  · exact h.loopClass_runs hs hf hend

/-! ### The step -/

/-- Handling one code runs to its end and leaves the invariant (R165). -/
theorem LiveInv.code_runs {i : Instr} (h : LiveInv s) (hi : s.fetch = .ok i) :
    ∃ t, runCode i s = .next t ∧ StateInv t := by
  obtain ⟨u, f, hu, hr, hf, hlive, hend⟩ := h.form_runs (State.fetch_selected hi).1
  obtain ⟨j, t, hj, ht, hinv⟩ := hlive.class_runs hf hend
  exact ⟨t, by rw [runCode_eq hi hu hr hj, ht], hinv⟩

theorem StateInv.stepDecoding_runs (h : StateInv s) (hs : s.state = .decoding) :
    ∃ t, stepDecoding s = .next t ∧ StateInv t := by
  unfold stepDecoding
  split
  · next i hi => exact (h.liveInv hs).code_runs hi
  · exact ⟨s, rfl, h⟩

theorem StateInv.start_runs (h : StateInv s) (hs : s.state ≠ .decoding) (len : Nat) :
    ∃ t, execSStart len s = .next t ∧ StateInv t := by
  unfold execSStart
  rw [if_neg hs]
  split
  · next i hi => exact (liveInv_beginSession h.inputWf len).code_runs hi
  · exact ⟨s, rfl, h⟩

/-- The step answers a next state and that state meets the invariant: with this no run stops and every run keeps it (R40). -/
theorem StateInv.step_runs (h : StateInv s) : ∃ t, step s = .next t ∧ StateInv t := by
  rcases step_cases s with ⟨-, he⟩ | ⟨-, hs, he⟩ | ⟨-, hs, -, he⟩ | ⟨-, -, -, he⟩ <;> rw [he]
  · exact ⟨_, rfl, stateInv_hardReset h.inputWf⟩
  · exact h.stepDecoding_runs hs
  · exact h.start_runs hs s.inLen
  · exact ⟨s, rfl, h⟩

end Sys2Proof

end

/-! ## The obligations -/

section

namespace Sys2Proof.Proofs

open Machine

/-- Settles O46: the state that `StateInv.step_runs` gives is the one the step answers. -/
theorem everyStepKeepsInvariant : Obligations.EveryStepKeepsInvariant := by
  intro s t h ht
  obtain ⟨u, hu, hinv⟩ := h.step_runs
  cases hu.symm.trans ht
  exact hinv

/-- Settles O47: `StateInv.step_runs` gives the next state. -/
theorem stepNeverFaultsOrRefuses : Obligations.StepNeverFaultsOrRefuses := by
  intro s h
  obtain ⟨t, ht, -⟩ := h.step_runs
  exact ⟨t, ht⟩

/-- Settles O14: a form consumes the bytes of its encoding, at most those that remain, and keeps `len`. -/
theorem fetchPointerNeverPassesLength : Obligations.FetchPointerNeverPassesLength := by
  intro s t i bytes hle he h
  obtain ⟨hpos, hlen, hrem⟩ := encoded_row_pos he h
  refine ⟨hpos, ?_⟩
  unfold State.rem at hrem
  omega

/-- Settles O25: forms keep the dictionary, the ending classes tear it down, the other rows write from slot 256 up. -/
theorem literalSlotsNeverWritten : Obligations.LiteralSlotsNeverWritten := by
  intro s t i hinit hstart hn h
  rcases row_kinds hstart with hk | hk | hk | hk
  · have hd : t.dict = s.dict := by rw [fetchForm_frame hk h]
    exact .inr fun k _ => by rw [hd]
  · have ht := endingClass_frame hk h
    exact .inl ⟨congrArg State.nfi ht, congrArg State.dict ht⟩
  · exact .inr fun k hlt => emittingClass_keeps_literal_slots hk h hn hlt
  · exact dictOp_keeps_literal_slots hk hinit h hn

/-- Settles O53: the host's part of the state is kept by every row. -/
theorem hostInputsNeverWritten : Obligations.HostInputsNeverWritten := by
  intro s t i h
  simpa [State.hostPart] using exec_hostPart h

/-- Settles O54: each kind of row has a frame, and the frame of a kind keeps the registers the kind does not own. -/
theorem registersWrittenOnlyByTheirRows : Obligations.RegistersWrittenOnlyByTheirRows := by
  intro s t i h hstart
  rcases row_kinds hstart with hk | hk | hk | hk
  · rw [fetchForm_frame hk h]; simp
  · rw [endingClass_frame hk h]; simp [hk]
  · rw [emittingClass_frame hk h]; simp [hk]
  · rw [dictOp_frame hk h]; simp

/-- Settles O42: the values of `State.reset`, whose dictionary lists no slot. -/
theorem resetStateValues : Obligations.ResetStateValues :=
  ⟨rfl, rfl, rfl, rfl, rfl, rfl, rfl, rfl, rfl, rfl, Cells.read_nil, rfl⟩

/-- Settles O45: the reset state is what hardware reset makes of itself. -/
theorem invariantAtReset : Obligations.InvariantAtReset :=
  stateInv_hardReset (s := State.reset) State.reset_wf.1

end Sys2Proof.Proofs

end

/-! ## What one code does to the output -/

section

namespace Sys2Proof.Machine

variable {s t u : State} {i j : Instr} {f : Fetched}

/-- Only the forms that find no further code write `trunc`, and those return the sentinel (R114 to R116, R23). -/
theorem fetchForm_trunc (hi : IsFetchForm i = true) (h : exec i s = .next t) :
    t.trunc = s.trunc ∨ t.ret = .fetched Config.eos := by
  cases i with
  | ncPair0 a n => obtain ⟨-, rfl⟩ := execNcPair0_eq_next.1 h; exact .inl rfl
  | ncPair1 b => obtain ⟨-, rfl⟩ := execNcPair1_eq_next.1 h; exact .inl rfl
  | ncTail a p => obtain ⟨-, rfl⟩ := (execNcTail_eq_next (p := p)).1 h; exact .inl rfl
  | ncEos0 => obtain ⟨-, rfl⟩ := execNcEos0_eq_next.1 h; exact .inl rfl
  | ncEos1 x => obtain ⟨-, rfl⟩ := (execNcEos1_eq_next (x := x)).1 h; exact .inr rfl
  | ncEosn => obtain ⟨-, rfl⟩ := execNcEosn_eq_next.1 h; exact .inr rfl
  | _ => cases hi

theorem fetchForm_output (hi : IsFetchForm i = true) (h : exec i s = .next t) : t.output = s.output := by
  rw [fetchForm_frame hi h]

theorem endingClass_output (hj : IsEndingClass j = true) (h : exec j s = .next t) : t.output = s.output := by
  rw [endingClass_frame hj h]

/-- An emitting class appends what it emits (R54). -/
theorem emittingClass_output_prefix (hj : IsEmittingClass j = true) (h : exec j s = .next t) :
    s.output <+: t.output := by
  rcases emittingClass_cases hj h with ⟨f, bytes, rfl⟩ | ⟨f, entry, hc⟩
  · exact List.prefix_append s.output bytes
  · obtain ⟨-, bytes, -, rfl⟩ := State.commit_eq_next.1 hc
    simp

/-- The sentinel ends the session, whatever the state: `E.EOS` in the loop, `E.FIRSTBAD` as a first value (R87). -/
theorem State.classify_eos (h : s.classify Config.eos = .ok j) : IsEndingClass j = true := by
  unfold State.classify at h
  split at h
  · unfold decodeFirst at h
    split_ifs at h with _ hn hlt
    · rw [not_not.1 hn] at hlt
      exact absurd hlt (by decide)
    · cases h; rfl
  · cases h; rfl
  · cases h
  · cases h

/-- Handling one code only adds to the output (R54). -/
theorem code_output_prefix (hi : IsFetchForm i = true) (hu : exec i s = .next u) (hj : u.classify f = .ok j)
    (ht : exec j u = .next t) : s.output <+: t.output := by
  rw [← fetchForm_output hi hu]
  rcases State.classify_isClass hj with hk | hk
  · rw [endingClass_output hk ht]
  · exact emittingClass_output_prefix hk ht

/-- A code that emits anything was no sentinel, so its fetch left `state`, `err` and `trunc` alone. -/
theorem fetch_keeps_status_of_emission (hi : IsFetchForm i = true) (hu : exec i s = .next u)
    (hr : u.ret = .fetched f) (hj : u.classify f = .ok j) (ht : exec j u = .next t) (hne : t.output ≠ s.output) :
    u.state = s.state ∧ u.err = s.err ∧ u.trunc = s.trunc := by
  have hend : ¬ IsEndingClass j = true := fun hk =>
    hne ((endingClass_output hk ht).trans (fetchForm_output hi hu))
  have htrunc : u.trunc = s.trunc := by
    rcases fetchForm_trunc hi hu with h | h
    · exact h
    · cases hr.symm.trans h
      exact absurd (State.classify_eos hj) hend
  exact ⟨by rw [fetchForm_frame hi hu], by rw [fetchForm_frame hi hu], htrunc⟩

theorem State.ended_congr (h : t.state = s.state) : t.ended = s.ended := by
  simp only [State.ended, State.done, State.fail, h]

/-- A step in Decoding only adds to the output. -/
theorem stepDecoding_output_prefix (h : stepDecoding s = .next t) : s.output <+: t.output := by
  rcases stepDecoding_eq_next h with rfl | ⟨i, u, f, j, hf, hu, -, hj, ht⟩
  · exact List.prefix_rfl
  · exact code_output_prefix (State.fetch_selected hf).2 hu hj ht

end Sys2Proof.Machine

end

/-! ## The status on the ports against the output

A cycle leaves the status as the host sees it, or it leaves the sink with all of the output: the registers change only where a step
lands, and it lands with the last byte of its emission. -/

section

namespace Sys2Proof

open Machine

/-- The sink has every byte of `OUT` and the registers are the code-level state (R65 e, R189 d). -/
def PortDelivered (q : PortState) : Prop := q.sent = q.code.output ∧ q.pending = [] ∧ q.core = q.code

/-- The host sees the same `state`, `err` and `trunc` as before, and no end of the session. -/
def StatusKept (s t : State) : Prop :=
  t.state = s.state ∧ t.err = s.err ∧ t.trunc = s.trunc ∧ t.ended = false

variable {q : PortState} {s u t : State}

theorem StatusKept.refl (h : s.ended = false) : StatusKept s s := ⟨rfl, rfl, rfl, h⟩

/-- With nothing owed to the sink no step is in progress and all of the output is transferred. -/
theorem PortInv.delivered (h : PortInv q) (hp : q.pending = []) : PortDelivered q := by
  have hcode : q.core = q.code := by
    cases hl : q.landing with
    | none => exact (PortState.code_of_none hl).symm
    | some t =>
      obtain ⟨-, -, hne, -⟩ := h.landed t hl
      exact absurd hp hne
  have hsent := h.outSplit
  rw [hp, List.append_nil] at hsent
  exact ⟨hsent, hp, hcode⟩

/-- The transfer of a byte leaves the registers, or is the emission's last and lands the step. -/
theorem PortInv.send_status (h : PortInv q) (hb : q.busy = true) {b : Byte} {rest : List Byte}
    (hp : q.pending = b :: rest) (n : Nat) :
    StatusKept q.core (q.send b rest n).core ∨ PortDelivered (q.send b rest n) := by
  cases rest with
  | nil =>
    have hsent := h.outSplit
    rw [hp] at hsent
    exact .inr ⟨hsent, rfl, rfl⟩
  | cons c rest => exact .inl (StatusKept.refl (h.running hb))

/-- The completion of a form with nothing owed lands at once when nothing is emitted, and leaves the status when something is. -/
theorem PortInv.complete_status (h : PortInv q) (hb : q.busy = true) (hp : q.pending = []) (n : Nat) :
    StatusKept q.core (q.complete n).core ∨ PortDelivered (q.complete n) := by
  rcases q.complete_cases n with he | ⟨i, u, t, hd, hfetch, hclass, he⟩ <;> rw [he]
  · exact .inl (StatusKept.refl (h.running hb))
  obtain ⟨hsent, -, hcore⟩ := h.delivered hp
  have hform : IsFetchForm i = true := (decodeFetch_selected hd).2
  have hrun : runCode i q.core = .next t := by rw [runCode, hfetch, andThen_next, hclass]
  obtain ⟨v, f, j, hv, hr, hj, ht⟩ := runCode_eq_next hform hrun
  cases (hfetch.symm.trans (runFetched_eq_exec hform _)).trans hv
  obtain ⟨bytes, hbytes⟩ := code_output_prefix hform hv hj ht
  have hdrop : t.output.drop q.core.output.length = bytes := by rw [← hbytes, List.drop_left]
  rcases q.handled_cases u t n with ⟨hnone, hq⟩ | ⟨b, rest, hsome, hq⟩ <;> rw [hq]
  · have hout : q.core.output = t.output := by rw [← hbytes, ← hdrop, hnone, List.append_nil]
    exact .inr ⟨by rw [hsent, ← hcore, hout, PortState.code_of_none rfl], hp, rfl⟩
  · have hne : t.output ≠ q.core.output := by
      intro heq
      rw [heq, List.drop_length] at hsome
      cases hsome
    obtain ⟨hs, herr, htr⟩ := fetch_keeps_status_of_emission hform hv hr hj ht hne
    exact .inl ⟨hs, herr, htr, (State.ended_congr hs).trans (h.running hb)⟩

/-- Every cycle keeps the status or leaves the output delivered (R65 e, R189 d). -/
theorem PortInv.cycle_status (h : PortInv q) (p : PortIn) :
    StatusKept q.core (q.cycle p).core ∨ PortDelivered (q.cycle p) := by
  have kept (hb : q.busy = true) : StatusKept q.core q.core := StatusKept.refl (h.running hb)
  rcases q.cycle_cases p with ⟨-, he⟩ | ⟨-, hb, -, he⟩ | ⟨-, -, -, he⟩ | ⟨-, hb, n, -, he⟩ | ⟨-, hb, -, -, -, he⟩ |
    ⟨-, hb, -, -, b, rest, hp, he⟩ | ⟨-, hb, -, -, -, -, he⟩ | ⟨-, hb, -, -, -, -, he⟩ | ⟨-, hb, -, hp, -, he⟩ <;> rw [he]
  · exact .inr ⟨rfl, rfl, rfl⟩
  · obtain ⟨-, hp, -⟩ := h.idle hb
    exact .inr (h.delivered hp)
  · exact .inr ⟨rfl, rfl, rfl⟩
  · exact .inl (kept hb)
  · exact .inl (kept hb)
  · exact h.send_status hb hp p.pace
  · exact .inl (kept hb)
  · exact .inl (kept hb)
  · exact h.complete_status hb hp p.pace

end Sys2Proof

end

/-! ## The obligations on the output -/

section

namespace Sys2Proof.Proofs

open Machine

/-- Settles O51: of the four cases of the step only a start command is outside the hypothesis; reset and waiting keep the output. -/
theorem outputOnlyGrows : Obligations.OutputOnlyGrows := by
  intro s t hs h
  rcases step_cases s with ⟨-, he⟩ | ⟨-, -, he⟩ | ⟨hr, hd, hstart, -⟩ | ⟨-, -, -, he⟩
  · cases he.symm.trans h
    exact List.prefix_rfl
  · exact stepDecoding_output_prefix (he.symm.trans h)
  · simp [hr, hd, hstart] at hs
  · cases he.symm.trans h
    exact List.prefix_rfl

/-- Settles O58: a cycle that keeps the status meets none of the four premises, every other leaves the output delivered. -/
theorem portStatusAfterOutput : Obligations.PortStatusAfterOutput := by
  intro p q h _ hchange
  rcases h.cycle_status p with ⟨hs, herr, htr, hend⟩ | hdelivered
  · simp [hs, herr, htr, hend] at hchange
  · exact hdelivered

end Sys2Proof.Proofs

end

/-! ## The decoder against the encoder

A form is decoded exactly where its selector holds and the stream begins with its encoding; the class of a value is decided by the
value and the state. -/

section

namespace Sys2Proof

open Machine

variable {loPend : Bool} {rem : Nat} {i : Instr} {used rest bytes : List Byte}

/-! ### The fetch forms -/

/-- A selected form is as long as `lo_pend` and `rem` say (R94). -/
theorem encode_length (hi : FormSelected loPend rem i) (he : encode i = some (.inl used)) :
    used.length = formBytes loPend rem := by
  cases i with
  | ncPair0 a n => obtain ⟨rfl, hr⟩ := hi; cases he; simp [formBytes, show 2 ≤ rem by omega]
  | ncPair1 b => obtain ⟨rfl, hr⟩ := hi; cases he; simp [formBytes, hr]
  | ncTail a p => obtain ⟨rfl, rfl⟩ := hi; cases he; rfl
  | ncEos0 => obtain ⟨rfl, rfl⟩ := hi; cases he; rfl
  | ncEos1 x => obtain ⟨rfl, rfl⟩ := hi; cases he; rfl
  | ncEosn => obtain ⟨rfl, rfl⟩ := hi; cases he; rfl
  | _ => exact hi.elim

/-- The stream begins with a selected form's encoding, so the form is decoded (R81 to R83). -/
theorem decodeFetch_encode (hi : FormSelected loPend rem i) (he : encode i = some (.inl used)) (rest : List Byte) :
    decodeFetch loPend rem (used ++ rest) = .ok i := by
  cases i with
  | ncPair0 a n => obtain ⟨rfl, hr⟩ := hi; cases he; simp [decodeFetch, hr]
  | ncPair1 b => obtain ⟨rfl, hr⟩ := hi; cases he; simp [decodeFetch, hr]
  | ncTail a p => obtain ⟨rfl, rfl⟩ := hi; cases he; simp [decodeFetch]
  | ncEos0 => obtain ⟨rfl, rfl⟩ := hi; cases he; rfl
  | ncEos1 x => obtain ⟨rfl, rfl⟩ := hi; cases he; rfl
  | ncEosn => obtain ⟨rfl, rfl⟩ := hi; cases he; rfl
  | _ => exact hi.elim

/-- Where the bytes of the form are there, they are the encoding of a form whose selector holds (R94). -/
theorem exists_selected_encoding (h : formBytes loPend rem ≤ bytes.length) :
    ∃ i, FormSelected loPend rem i ∧ encode i = some (.inl (bytes.take (formBytes loPend rem))) := by
  cases loPend with
  | true =>
    rcases Nat.eq_zero_or_pos rem with rfl | hr
    · exact ⟨.ncEosn, ⟨rfl, rfl⟩, rfl⟩
    · have hn : formBytes true rem = 1 := by simp [formBytes, Nat.succ_le_of_lt hr]
      rw [hn] at h ⊢
      match bytes, h with
      | b :: _, _ => exact ⟨.ncPair1 b, ⟨rfl, hr⟩, rfl⟩
  | false =>
    match rem, h with
    | 0, _ => exact ⟨.ncEos0, ⟨rfl, rfl⟩, rfl⟩
    | 1, h =>
      match bytes, h with
      | x :: _, _ => exact ⟨.ncEos1 x, ⟨rfl, rfl⟩, rfl⟩
    | 2, h =>
      match bytes, h with
      | b0 :: b1 :: _, _ => exact ⟨.ncTail (codeA b0 b1) (lowNibble b1), ⟨rfl, rfl⟩, by simp [encode, formBytes]⟩
    | r + 3, h =>
      match bytes, h with
      | b0 :: b1 :: _, _ =>
        exact ⟨.ncPair0 (codeA b0 b1) (lowNibble b1), ⟨rfl, by omega⟩, by simp [encode, formBytes]⟩
      | [_], h => simp [formBytes] at h
      | [], h => simp [formBytes] at h

/-- The bytes that a form is decoded from begin with its encoding: no bit of them is lost (R84). -/
theorem encode_of_decodeFetch (h : decodeFetch loPend rem bytes = .ok i) :
    encode i = some (.inl (bytes.take (formBytes loPend rem))) := by
  have hi := (decodeFetch_selected h).1
  cases i with
  | ncPair0 a n =>
    obtain ⟨rfl, hr⟩ := hi
    rcases bytes with _ | ⟨b0, _ | ⟨b1, rest⟩⟩
    · simp [decodeFetch, hr] at h
    · simp [decodeFetch, hr] at h
    · obtain ⟨rfl, rfl⟩ : codeA b0 b1 = a ∧ lowNibble b1 = n := by simpa [decodeFetch, hr] using h
      simp [encode, formBytes, show 2 ≤ rem by omega]
  | ncPair1 b =>
    obtain ⟨rfl, hr⟩ := hi
    cases bytes with
    | nil => simp [decodeFetch, hr] at h
    | cons b2 rest =>
      obtain rfl : b2 = b := by simpa [decodeFetch, hr] using h
      simp [encode, formBytes, hr]
  | ncTail a p =>
    obtain ⟨rfl, rfl⟩ := hi
    rcases bytes with _ | ⟨b0, _ | ⟨b1, rest⟩⟩
    · cases h
    · cases h
    · cases h
      simp [encode, formBytes]
  | ncEos0 => obtain ⟨rfl, rfl⟩ := hi; rfl
  | ncEos1 x =>
    obtain ⟨rfl, rfl⟩ := hi
    cases bytes with
    | nil => cases h
    | cons b0 rest => cases h; rfl
  | ncEosn => obtain ⟨rfl, rfl⟩ := hi; rfl
  | _ => exact hi.elim

/-! ### The classes -/

variable {s t : State} {f : Fetched}

/-- A code in the loop is classified by its place against the cursor and by `prev` (R87). -/
theorem classify_code (hs : s.state = .decoding) (c : Code) :
    s.classify (zext13 c) = .ok (
      if s.nfi < zext13 c then .eBad c
      else if s.nfi ≤ zext13 s.prev then .eStale c
      else if zext13 c = s.nfi then .eKwkwk c
      else .eKnown c) := by
  rw [State.classify_decoding hs (zext13_le_eos c), if_neg (zext13_ne_eos c), low12_zext13]

/-- A byte is classified as a literal first code (R87, R151). -/
theorem classify_literal (hs : s.state = .start) (hn : s.nfi = Config.firstFree) (b : Byte) :
    s.classify (b.setWidth 13) = .ok (.eFirst b) := by
  have hb : (b.setWidth 13 : Fetched).toNat = b.toNat := by rw [BitVec.toNat_setWidth]; omega
  have hlt : b.setWidth 13 < s.nfi := by rw [hn, BitVec.lt_def, hb]; exact b.isLt
  rw [State.classify_start hs hn (by omega), if_pos hlt, BitVec.setWidth_setWidth_of_le _ (by omega),
    BitVec.setWidth_eq]

/-- The encoding of a selected class is classified as the class (R87). -/
theorem classify_encode (hi : ClassSelected s i) (he : encode i = some (.inr f)) : s.classify f = .ok i := by
  cases i with
  | eFirst b => obtain ⟨hs, hn⟩ := hi; cases he; exact classify_literal hs hn b
  | eFirstBad g =>
    obtain ⟨hs, hn, hlo, hhi⟩ := hi
    cases he
    rw [State.classify_start hs hn hhi, if_neg (BitVec.not_lt.2 hlo)]
  | eEos => cases he; rw [State.classify_decoding hi (by decide), if_pos rfl]
  | eBad c => obtain ⟨hs, hc⟩ := hi; cases he; rw [classify_code hs, if_pos hc]
  | eStale c =>
    obtain ⟨hs, hc, hp⟩ := hi
    cases he
    rw [classify_code hs, if_neg (BitVec.not_lt.2 hc), if_pos hp]
  | eKwkwk c =>
    obtain ⟨hs, hc, hp⟩ := hi
    cases he
    rw [classify_code hs, if_neg (BitVec.not_lt.2 (BitVec.le_of_eq hc)), if_neg (BitVec.not_le.2 hp), if_pos hc]
  | eKnown c =>
    obtain ⟨hs, hc, hp⟩ := hi
    cases he
    rw [classify_code hs, if_neg (BitVec.not_lt.2 (BitVec.le_of_lt hc)), if_neg (BitVec.not_le.2 hp),
      if_neg (BitVec.ne_of_lt hc)]
  | _ => exact hi.elim

/-! ### A stream row that runs was selected -/

/-- A form that runs has its selector (R94). -/
theorem formSelected_of_runs (hi : IsFetchForm i = true) (h : exec i s = .next t) :
    FormSelected s.loPend s.rem i := by
  cases i with
  | ncPair0 a n => exact (execNcPair0_eq_next.1 h).1
  | ncPair1 b => exact (execNcPair1_eq_next.1 h).1
  | ncTail a p => exact ((execNcTail_eq_next (p := p)).1 h).1
  | ncEos0 => exact (execNcEos0_eq_next.1 h).1
  | ncEos1 x => exact ((execNcEos1_eq_next (x := x)).1 h).1
  | ncEosn => exact (execNcEosn_eq_next.1 h).1
  | _ => cases hi

/-- A class that runs has its condition (R87). -/
theorem classSelected_of_runs (hi : IsEndingClass i = true ∨ IsEmittingClass i = true) (h : exec i s = .next t) :
    ClassSelected s i := by
  cases i with
  | eFirst b => exact (execEFirst_eq_next.1 h).1
  | eFirstBad f =>
    obtain ⟨⟨⟨hs, hn⟩, hlo, hhi⟩, -⟩ := execEFirstBad_eq_next.1 h
    exact ⟨hs, hn, hlo, hhi⟩
  | eEos => exact (execEEos_eq_next.1 h).1
  | eBad c => exact (execEBad_eq_next.1 h).1
  | eStale c => exact (execEStale_eq_next.1 h).1
  | eKwkwk c => exact (execEKwkwk_eq_next.1 h).1
  | eKnown c => exact (execEKnown_eq_next.1 h).1
  | _ => simp [IsEndingClass, IsEmittingClass] at hi

end Sys2Proof

end

/-! ## Reading a packed stream

`pack` lays the codes out two to three bytes, so the reader's forms follow its recursion: `NC.PAIR0` and `NC.PAIR1` take two codes,
`NC.TAIL` a last single one, `NC.EOS0` finds the end. -/

section

namespace Sys2Proof

open Machine

/-- The input holds exactly these bytes from `pos` on. -/
structure Unread (s : State) (bytes : List Byte) : Prop where
  len : s.len = s.pos + bytes.length
  cells : ∀ j < bytes.length, Cells.read s.input (s.pos + j) = bytes[j]?

variable {s u : State} {i : Instr} {f : Fetched} {used rest bytes : List Byte}

namespace Unread

theorem of_input_at_start (hp : s.pos = 0) (hl : s.len = bytes.length) (hi : s.input = Memory.ofBytes bytes) :
    Unread s bytes where
  len := by rw [hl, hp, Nat.zero_add]
  cells j _ := by rw [hi, hp, Nat.zero_add, Memory.read_ofBytes]

theorem rem_eq (h : Unread s bytes) : s.rem = bytes.length := by
  have := h.len
  unfold State.rem
  omega

/-- A form whose bytes come next is the one that is fetched. -/
theorem fetch (h : Unread s (used ++ rest)) (hi : FormSelected s.loPend s.rem i)
    (he : encode i = some (.inl used)) : s.fetch = .ok i := by
  have hcells : ∀ j < used.length, Cells.read s.input (s.pos + j) = used[j]? := fun j hj => by
    rw [h.cells j (by simp; omega), List.getElem?_append_left hj]
  rw [State.fetch_of_bytes (encode_length hi he) hcells]
  simpa using decodeFetch_encode hi he []

/-- A form that runs leaves the bytes behind its own. -/
theorem of_runs (h : Unread s (used ++ rest)) (hi : IsFetchForm i = true) (he : encode i = some (.inl used))
    (hu : exec i s = .next u) : Unread u rest := by
  obtain ⟨hpos, hlen, -⟩ := encoded_row_pos he hu
  have hin : u.input = s.input := congrArg Prod.fst (fetchForm_hostPart hi hu)
  constructor
  · rw [hlen, hpos, h.len, List.length_append, Nat.add_assoc]
  · intro j hj
    rw [hin, hpos, Nat.add_assoc, h.cells _ (by simp; omega), List.getElem?_append_right (by omega),
      Nat.add_sub_cancel_left]

/-- The value of the form whose bytes come next is the first value read. -/
theorem readValues_succ (h : Unread s (used ++ rest)) (hi : IsFetchForm i = true) (he : encode i = some (.inl used))
    (hu : exec i s = .next u) (hf : u.ret = .fetched f) (n : Nat) :
    readValues (n + 1) s = (f :: (readValues n u).1, (readValues n u).2) := by
  have hnext : s.nextCode = .next u := by
    rw [State.nextCode, h.fetch (formSelected_of_runs hi hu) he]
    exact (runFetched_eq_exec hi s).trans hu
  simp only [readValues, hnext, State.fetchedValue_eq hf]

/-- At the end of the input the sentinel is read and nothing but `ret` changes (R114). -/
theorem readValues_end (h : Unread s []) (hp : s.loPend = false) :
    readValues 1 s = ([Config.eos], s.returning (.fetched Config.eos)) := by
  have hu : exec .ncEos0 s = .next _ := execNcEos0_eq_next.2 ⟨⟨hp, h.rem_eq⟩, rfl⟩
  exact readValues_succ (used := []) (rest := []) h rfl rfl hu rfl 0

end Unread

/-- Reading packed codes returns them, then the sentinel, and leaves `trunc` (R96). -/
theorem readValues_pack (codes : List Code) (s : State) (hp : s.loPend = false) (h : Unread s (pack codes)) :
    (readValues (codes.length + 1) s).1 = codes.map zext13 ++ [Config.eos] ∧
      (readValues (codes.length + 1) s).2.trunc = s.trunc := by
  induction codes using pack.induct generalizing s with
  | case1 => rw [List.length_nil, h.readValues_end hp]; exact ⟨rfl, rfl⟩
  | case2 c =>
    have hu : exec (.ncTail c 0#4) s = .next _ := (execNcTail_eq_next (p := 0#4)).2 ⟨⟨hp, h.rem_eq⟩, rfl⟩
    have hend : Unread _ [] := Unread.of_runs h rfl rfl hu
    rw [Unread.readValues_succ (rest := []) h rfl rfl hu rfl, List.length_singleton, hend.readValues_end hp]
    exact ⟨rfl, rfl⟩
  | case3 a b rest ih =>
    have hrem : 3 ≤ s.rem := by rw [h.rem_eq]; simp [pack]
    have hu : exec (.ncPair0 a ((b >>> 8).setWidth 4)) s = .next _ := execNcPair0_eq_next.2 ⟨⟨hp, hrem⟩, rfl⟩
    have hB : Unread _ (b.setWidth 8 :: pack rest) := Unread.of_runs h rfl rfl hu
    have hv : exec (.ncPair1 (b.setWidth 8)) _ = .next _ :=
      execNcPair1_eq_next.2 ⟨⟨rfl, by rw [hB.rem_eq]; simp⟩, rfl⟩
    have hrest : Unread _ (pack rest) := Unread.of_runs hB rfl rfl hv
    obtain ⟨hvalues, htrunc⟩ := ih _ rfl hrest
    rw [List.length_cons, List.length_cons, Unread.readValues_succ h rfl rfl hu rfl,
      Unread.readValues_succ hB rfl rfl hv rfl, hvalues, htrunc]
    refine ⟨?_, rfl⟩
    simp [codeB_halves]

end Sys2Proof

end

/-! ## The obligations on the encoding -/

section

namespace Sys2Proof.Proofs

open Machine

/-- Settles O2: a selected form is decoded from every stream that begins with its encoding. -/
theorem fetchFormsDecodeTheirEncoding : Obligations.FetchFormsDecodeTheirEncoding :=
  fun _ _ _ _ rest hi he => decodeFetch_encode hi he rest

/-- Settles O3: by the place of each class in the chain of tests. -/
theorem classesDecodeTheirEncoding : Obligations.ClassesDecodeTheirEncoding :=
  fun _ _ _ hi he => classify_encode hi he

/-- Settles O6: the whole input is unread at the start, and `pack`'s recursion is the reader's. -/
theorem packedCodesReadBack : Obligations.PackedCodesReadBack := by
  intro codes s hpos hp hlen hin
  obtain ⟨hvalues, htrunc⟩ := readValues_pack codes s hp (Unread.of_input_at_start hpos hlen hin)
  refine ⟨?_, htrunc⟩
  rw [hvalues, funext zext13_eq]

/-- Settles O4: by the form decoded, whose fields hold every bit of its bytes. -/
theorem decodedFormsReencodeToTheirBytes : Obligations.DecodedFormsReencodeToTheirBytes :=
  fun _ _ _ _ h => encode_of_decodeFetch h

/-- Settles O5: some form has the consumed bytes as its encoding, and it is decoded from them. -/
theorem formChosenByPendingAndRemaining : Obligations.FormChosenByPendingAndRemaining := by
  intro loPend rem bytes
  refine ⟨fun hlen => ?_, fun i h => (decodeFetch_selected h).1⟩
  obtain ⟨i, hi, he⟩ := exists_selected_encoding hlen
  have hdec := decodeFetch_encode hi he (bytes.drop (formBytes loPend rem))
  rw [List.take_append_drop] at hdec
  exact ⟨i, hdec⟩

/-- Settles O33: the guard of each row is its selector or condition. -/
theorem streamRowsRunOnlyWhereSelected : Obligations.StreamRowsRunOnlyWhereSelected :=
  fun _ _ _ h => ⟨fun hi => formSelected_of_runs hi h, fun hi => classSelected_of_runs hi h⟩

/-- Settles O1: thirteen fixed words, evaluated by the decoder. -/
theorem decodedWordsMatchSpecEncodings : Obligations.DecodedWordsMatchSpecEncodings :=
  ⟨rfl, rfl, rfl, rfl, rfl, rfl, rfl, rfl, rfl, rfl, rfl, rfl, rfl⟩

/-- Settles O44: the encodings are as written, and bits 1 and 0 are read off for each of the four states. -/
theorem statusOutputsEncoded : Obligations.StatusOutputsEncoded := by
  refine ⟨rfl, rfl, rfl, rfl, rfl, rfl, rfl, rfl, rfl, fun s => ?_⟩
  unfold State.ended State.done State.fail
  cases s.state with
  | start => decide
  | decoding => decide
  | finished => decide
  | failed => decide

end Sys2Proof.Proofs

end

/-! ## The six fetch forms

What the reader fetches from the bytes that stand at `pos`, the value of each form by the spec's arithmetic, and the end of the
stream, at which a fetch repeats itself. -/

section

namespace Sys2Proof

/-! ### Codes and nibbles by the spec's formulas (R84) -/

theorem codeA_eq (b0 b1 : Byte) : codeA b0 b1 = BitVec.ofNat 12 (b0.toNat * 16 + b1.toNat / 16) := by
  rw [← codeA_toNat, BitVec.ofNat_toNat, BitVec.setWidth_eq]

theorem lowNibble_eq (b1 : Byte) : lowNibble b1 = BitVec.ofNat 4 (b1.toNat % 16) := by
  rw [← lowNibble_toNat, BitVec.ofNat_toNat, BitVec.setWidth_eq]

theorem zext13_codeB (n : Nibble) (b : Byte) :
    zext13 (codeB n b) = BitVec.ofNat 13 (n.toNat * 256 + b.toNat) := by
  rw [zext13_eq, codeB_toNat]

end Sys2Proof

namespace Sys2Proof.Machine

variable {s t : State} {i : Instr} {used : List Byte}

/-! ### The form fetched -/

/-- Where a selected form's encoding stands at `pos`, the fetch gives that form (R94, R110). -/
theorem State.fetch_of_encoding (hi : FormSelected s.loPend s.rem i) (he : encode i = some (.inl used))
    (hr : ∀ j < used.length, Cells.read s.input (s.pos + j) = used[j]?) : s.fetch = .ok i := by
  rw [State.fetch_of_bytes (encode_length hi he) hr]
  simpa using decodeFetch_encode hi he []

/-- A form of no bytes needs none of the input. -/
theorem State.fetch_of_no_bytes (hi : FormSelected s.loPend s.rem i) (he : encode i = some (.inl [])) :
    s.fetch = .ok i :=
  State.fetch_of_encoding hi he fun _ hj => absurd hj (Nat.not_lt_zero _)

theorem State.fetch_of_one_byte {b : Byte} (hi : FormSelected s.loPend s.rem i)
    (he : encode i = some (.inl [b])) (hb : Cells.read s.input s.pos = some b) : s.fetch = .ok i := by
  refine State.fetch_of_encoding hi he fun j hj => ?_
  match j, hj with
  | 0, _ => exact hb

theorem State.fetch_of_two_bytes {b0 b1 : Byte} (hi : FormSelected s.loPend s.rem i)
    (he : encode i = some (.inl [b0, b1])) (hb0 : Cells.read s.input s.pos = some b0)
    (hb1 : Cells.read s.input (s.pos + 1) = some b1) : s.fetch = .ok i := by
  refine State.fetch_of_encoding hi he fun j hj => ?_
  match j, hj with
  | 0, _ => exact hb0
  | 1, _ => exact hb1

/-! ### The end of the stream -/

/-- Nothing is left to fetch, `EOS` was returned, and a nibble still pending has set `trunc` (R114 to R116). -/
structure EosReturned (s : State) : Prop where
  rem : s.rem = 0
  ret : s.ret = .fetched Config.eos
  trunc : s.loPend = true → s.trunc = true

/-- A form that returned `EOS` is one of the three end forms, since a code is never the sentinel (R86). -/
theorem eosReturned_of_runs (hi : IsFetchForm i = true) (h : exec i s = .next t)
    (hret : t.ret = .fetched Config.eos) : EosReturned t := by
  have code {c : Code} (hc : t.ret = .fetched (zext13 c)) : False :=
    zext13_ne_eos c (Ret.fetched.inj (hc.symm.trans hret))
  cases i with
  | ncPair0 a n => obtain ⟨-, rfl⟩ := execNcPair0_eq_next.1 h; exact (code rfl).elim
  | ncPair1 b => obtain ⟨-, rfl⟩ := execNcPair1_eq_next.1 h; exact (code rfl).elim
  | ncTail a p => obtain ⟨-, rfl⟩ := (execNcTail_eq_next (p := p)).1 h; exact (code rfl).elim
  | ncEos0 =>
    obtain ⟨⟨hp, hr⟩, rfl⟩ := execNcEos0_eq_next.1 h
    exact ⟨hr, rfl, fun hp' => by simp [hp] at hp'⟩
  | ncEos1 x =>
    obtain ⟨⟨-, hr⟩, rfl⟩ := (execNcEos1_eq_next (x := x)).1 h
    refine ⟨?_, rfl, fun _ => rfl⟩
    show s.len - (s.pos + 1) = 0
    unfold State.rem at hr
    omega
  | ncEosn =>
    obtain ⟨⟨-, hr⟩, rfl⟩ := execNcEosn_eq_next.1 h
    exact ⟨hr, rfl, fun _ => rfl⟩
  | _ => cases hi

/-- After `EOS` the next fetch is `NC.EOS0` or `NC.EOSN`, which finds every register it writes at its value (R117). -/
theorem EosReturned.fetch_again (h : EosReturned s) : ∃ j, s.fetch = .ok j ∧ exec j s = .next s := by
  have hret : s = s.returning (.fetched Config.eos) := by rw [← h.ret]; rfl
  cases hp : s.loPend with
  | false =>
    exact ⟨.ncEos0, State.fetch_of_no_bytes ⟨hp, h.rem⟩ rfl, execNcEos0_eq_next.2 ⟨⟨hp, h.rem⟩, hret⟩⟩
  | true =>
    have htrunc : s = s.setTrunc := by rw [State.setTrunc, ← h.trunc hp]
    exact ⟨.ncEosn, State.fetch_of_no_bytes ⟨hp, h.rem⟩ rfl,
      execNcEosn_eq_next.2 ⟨⟨hp, h.rem⟩, htrunc ▸ hret⟩⟩

/-! ### Which form writes which of the reader's bits -/

/-- `lo_nib` is written by `NC.PAIR0`, `lo_pend` by the two halves of a group, `trunc` by the two ends that lose data
(R111, R112, R115, R116). -/
theorem fetchForm_bits_frame (hi : IsFetchForm i = true) (h : exec i s = .next t) :
    (t.loNib = s.loNib ∨ ∃ a, i = .ncPair0 a t.loNib) ∧
    (t.loPend = s.loPend ∨ (∃ a n, i = .ncPair0 a n) ∨ ∃ b, i = .ncPair1 b) ∧
    (t.trunc = s.trunc ∨ (∃ x, i = .ncEos1 x) ∨ i = .ncEosn) := by
  cases i with
  | ncPair0 a n =>
    obtain ⟨-, rfl⟩ := execNcPair0_eq_next.1 h
    exact ⟨.inr ⟨a, rfl⟩, .inr (.inl ⟨a, n, rfl⟩), .inl rfl⟩
  | ncPair1 b =>
    obtain ⟨-, rfl⟩ := execNcPair1_eq_next.1 h
    exact ⟨.inl rfl, .inr (.inr ⟨b, rfl⟩), .inl rfl⟩
  | ncTail a p =>
    obtain ⟨-, rfl⟩ := (execNcTail_eq_next (p := p)).1 h
    exact ⟨.inl rfl, .inl rfl, .inl rfl⟩
  | ncEos0 =>
    obtain ⟨-, rfl⟩ := execNcEos0_eq_next.1 h
    exact ⟨.inl rfl, .inl rfl, .inl rfl⟩
  | ncEos1 x =>
    obtain ⟨-, rfl⟩ := (execNcEos1_eq_next (x := x)).1 h
    exact ⟨.inl rfl, .inl rfl, .inr (.inl ⟨x, rfl⟩)⟩
  | ncEosn =>
    obtain ⟨-, rfl⟩ := execNcEosn_eq_next.1 h
    exact ⟨.inl rfl, .inl rfl, .inr (.inr rfl)⟩
  | _ => cases hi

end Sys2Proof.Machine

end

/-! ## The obligations on the reader -/

section

namespace Sys2Proof.Proofs

open Machine

/-- Settles O7: the form's own law, and the fetch of two bytes, whose encoding gives them back. -/
theorem pair0ReturnsCodeAndKeepsNibble : Obligations.Pair0ReturnsCodeAndKeepsNibble := by
  intro s hp hr
  refine ⟨fun a n => execNcPair0_eq_next.2 ⟨⟨hp, hr⟩, by rw [← zext13_eq]; rfl⟩, fun b0 b1 hb0 hb1 => ?_⟩
  rw [← codeA_eq, ← lowNibble_eq]
  exact State.fetch_of_two_bytes ⟨hp, hr⟩ (by simp [encode]) hb0 hb1

/-- Settles O8: code B by the spec's sum, and the fetch of one byte. -/
theorem pair1JoinsKeptNibble : Obligations.Pair1JoinsKeptNibble := by
  intro s hp hr
  exact ⟨fun b => execNcPair1_eq_next.2 ⟨⟨hp, hr⟩, by rw [← zext13_codeB]; rfl⟩,
    fun _ hb => State.fetch_of_one_byte ⟨hp, hr⟩ rfl hb⟩

/-- Settles O9: as `NC.PAIR0`, with nothing kept of the padding. -/
theorem tailReturnsCodeAndIgnoresPadding : Obligations.TailReturnsCodeAndIgnoresPadding := by
  intro s hp hr
  refine ⟨fun a pad => (execNcTail_eq_next (p := pad)).2 ⟨⟨hp, hr⟩, by rw [← zext13_eq]; rfl⟩,
    fun b0 b1 hb0 hb1 => ?_⟩
  rw [← codeA_eq, ← lowNibble_eq]
  exact State.fetch_of_two_bytes ⟨hp, hr⟩ (by simp [encode]) hb0 hb1

/-- Settles O13: a form that returned `EOS` leaves a state in which the fetch repeats itself. -/
theorem endOfStreamSticky : Obligations.EndOfStreamSticky :=
  fun _ _ _ hi h hret => (eosReturned_of_runs (State.fetch_selected hi).2 h hret).fetch_again

/-- Settles O15: the frame of the forms, and the form that writes each of the reader's bits. -/
theorem fetchFormsFrame : Obligations.FetchFormsFrame := by
  intro s t i hi h
  have hbits := fetchForm_bits_frame hi h
  have hframe := fetchForm_frame hi h
  refine ⟨?_, ?_, ?_, ?_, ?_, ?_, ?_, ?_, ?_, ?_, fun k => ?_, fun a => ?_, hbits⟩
  all_goals rw [hframe]

/-- Settles O10: a form of no bytes, whose law changes `ret` only. -/
theorem cleanEndReturnsSentinel : Obligations.CleanEndReturnsSentinel :=
  fun _ hp hr => ⟨State.fetch_of_no_bytes ⟨hp, hr⟩ rfl, execNcEos0_eq_next.2 ⟨⟨hp, hr⟩, rfl⟩⟩

/-- Settles O11: the law of `NC.EOS1` does not mention the byte. -/
theorem danglingByteConsumedAndTruncSet : Obligations.DanglingByteConsumedAndTruncSet :=
  fun _ hp hr => ⟨fun x => (execNcEos1_eq_next (x := x)).2 ⟨⟨hp, hr⟩, rfl⟩,
    fun _ hx => State.fetch_of_one_byte ⟨hp, hr⟩ rfl hx⟩

/-- Settles O12: a form of no bytes, whose law writes `trunc` and `ret` only. -/
theorem pendingNibbleAtEndSetsTrunc : Obligations.PendingNibbleAtEndSetsTrunc :=
  fun _ hp hr => ⟨State.fetch_of_no_bytes ⟨hp, hr⟩ rfl, execNcEosn_eq_next.2 ⟨⟨hp, hr⟩, rfl⟩⟩

end Sys2Proof.Proofs

end

/-! ## The dictionary's operations

DI1 and DI2 are kept by each update of the dictionary on its own, without the bound on the entries that `DictInv` carries; a live
slot is below the cursor, where no row but a reset or a teardown writes. -/

section

namespace Sys2Proof.Machine

variable {s t : State} {i : Instr} {k : Nat} {e entry : List Byte}

/-! ### Outside the append's domain -/

theorem State.dictAppend_eq_fault (h : 4096 ≤ s.nfi.toNat) : s.dictAppend entry = .fault .noSuchSlot :=
  if_pos (show Config.capacity ≤ s.nfi from BitVec.le_def.2 h)

theorem State.dictAppend_eq_refused (h : s.nfi.toNat < 4096)
    (hd : s.nfi.toNat < 256 ∨ entry.length < 2 ∨ 3841 < entry.length) :
    s.dictAppend entry = .refused .appendOutsideDomain := by
  have hroom : ¬ Config.capacity ≤ s.nfi := by rw [BitVec.le_def]; exact Nat.not_le.2 h
  exact (if_neg hroom).trans (if_pos (hd.imp_left BitVec.lt_def.2))

/-! ### DI1 and DI2 -/

theorem dictFilled_dictInit : DictFilled s.dictInit := DictInv.init.filled

theorem literalsHeld_dictInit : LiteralsHeld s.dictInit := DictInv.init.literals

theorem dictFilled_dictTeardown : DictFilled s.dictTeardown := DictInv.empty.filled

theorem literalsHeld_dictTeardown : LiteralsHeld s.dictTeardown := DictInv.empty.literals

theorem dictFilled_dictStore (h : DictFilled s) (hn : s.nfi.toNat ≤ 4095) : DictFilled (s.dictStore e) := by
  intro k
  rw [State.dictStore_nfi_toNat hn]
  by_cases hk : k = s.nfi.toNat
  · rw [hk, State.read_dictStore_same]; simp
  · rw [State.read_dictStore_other hk, h k]; omega

theorem literalsHeld_dictStore (h : LiteralsHeld s) (hn : 256 ≤ s.nfi.toNat) : LiteralsHeld (s.dictStore e) :=
  fun _ k hk => (State.read_dictStore_other (by omega)).trans (h hn k hk)

/-- The slots that a reset keeps are populated, since the cursor stood above them. -/
theorem dictFilled_dictReset (h : DictFilled s) (hn : 256 ≤ s.nfi.toNat) : DictFilled s.dictReset := by
  intro k
  rw [State.read_dictReset, State.dictReset_nfi, show (Config.firstFree).toNat = 256 from rfl]
  by_cases hk : k < 256
  · rw [if_pos hk, h k]; omega
  · rw [if_neg hk]; simp [hk]

theorem literalsHeld_dictReset (h : LiteralsHeld s) (hn : 256 ≤ s.nfi.toNat) : LiteralsHeld s.dictReset :=
  fun _ k hk => by rw [State.read_dictReset, if_pos hk, h hn k hk]

/-- A dictionary operation that runs keeps DI1 and DI2, a reset where the table holds the literals (R135). -/
theorem dictOp_keeps_filled_and_literals (hi : IsDictOp i = true) (hf : DictFilled s) (hl : LiteralsHeld s)
    (hr : i = .dReset → 256 ≤ s.nfi.toNat) (h : exec i s = .next t) : DictFilled t ∧ LiteralsHeld t := by
  cases i with
  | dInit => cases h; exact ⟨dictFilled_dictInit, literalsHeld_dictInit⟩
  | dGet c => obtain ⟨_, -, rfl⟩ := execDGet_eq_next.1 h; exact ⟨hf, hl⟩
  | dAppend entry =>
    obtain ⟨⟨hlo, hhi, -⟩, rfl⟩ := execDAppend_eq_next.1 h
    exact ⟨dictFilled_dictStore hf hhi, literalsHeld_dictStore hl hlo⟩
  | dReset => cases h; exact ⟨dictFilled_dictReset hf (hr rfl), literalsHeld_dictReset hl (hr rfl)⟩
  | dTeardown => cases h; exact ⟨dictFilled_dictTeardown, literalsHeld_dictTeardown⟩
  | _ => cases hi

/-- The operations other than `D.INIT` and `D.TEARDOWN` write from slot 256 up or not at all, whatever the cursor is (R135). -/
theorem dictOp_reads_literal_slot (hi : IsDictOp i = true) (hinit : i ≠ .dInit) (htear : i ≠ .dTeardown)
    (h : exec i s = .next t) (hk : k < 256) : Cells.read t.dict k = Cells.read s.dict k := by
  cases i with
  | dInit => exact absurd rfl hinit
  | dGet c => obtain ⟨_, -, rfl⟩ := execDGet_eq_next.1 h; rfl
  | dAppend entry =>
    obtain ⟨⟨hlo, -⟩, rfl⟩ := execDAppend_eq_next.1 h
    exact State.read_dictStore_other (by omega)
  | dReset => cases h; rw [State.read_dictReset, if_pos hk]
  | dTeardown => exact absurd rfl htear
  | _ => cases hi

/-! ### The lifetime of an entry -/

/-- What becomes of slot `k`, which held `entry`: it holds it still, a reset empties it, or a teardown empties the table (R136). -/
def EntryLivesOrFreed (k : Nat) (entry : List Byte) (t : State) : Prop :=
  Cells.read t.dict k = some entry ∨
    (256 ≤ k ∧ t.nfi = 256#13 ∧ Cells.read t.dict k = none) ∨
    (t.nfi = 0#13 ∧ t.dict = [])

theorem DictFilled.lt_of_read (h : DictFilled s) (hk : Cells.read s.dict k = some entry) : k < s.nfi.toNat :=
  (h k).1 (by rw [hk]; rfl)

theorem dictReset_entry (hk : Cells.read s.dict k = some entry) : EntryLivesOrFreed k entry s.dictReset := by
  by_cases hlit : k < 256
  · exact .inl (by rw [State.read_dictReset, if_pos hlit, hk])
  · exact .inr (.inl ⟨by omega, rfl, by rw [State.read_dictReset, if_neg hlit]⟩)

/-- Commit stores at the cursor, above every live slot, and resets when that fills the table (R159). -/
theorem State.commit_entry (h : s.commit e = .next t) (hlt : k < s.nfi.toNat) (hk : Cells.read s.dict k = some entry) :
    EntryLivesOrFreed k entry t := by
  obtain ⟨⟨-, hhi, -⟩, bytes, -, rfl⟩ := State.commit_eq_next.1 h
  have hread := State.read_commit (entry := e) (bytes := bytes) (s := s) rfl rfl hhi k
  by_cases hfreed : s.nfi.toNat = 4095 ∧ 256 ≤ k
  · rw [if_pos hfreed] at hread
    exact .inr (.inl ⟨hfreed.2, (State.commit_full hfreed.1).1, hread⟩)
  · rw [if_neg hfreed, if_neg (by omega), hk] at hread
    exact .inl hread

theorem emittingClass_entry (hi : IsEmittingClass i = true) (h : exec i s = .next t) (hlt : k < s.nfi.toNat)
    (hk : Cells.read s.dict k = some entry) : EntryLivesOrFreed k entry t := by
  rcases emittingClass_cases hi h with ⟨f, bytes, rfl⟩ | ⟨f, e, hc⟩
  · exact .inl hk
  · exact State.commit_entry hc hlt hk

theorem dictOp_entry (hi : IsDictOp i = true) (hd : i ≠ .dInit) (h : exec i s = .next t) (hlt : k < s.nfi.toNat)
    (hk : Cells.read s.dict k = some entry) : EntryLivesOrFreed k entry t := by
  cases i with
  | dInit => exact absurd rfl hd
  | dGet c => obtain ⟨_, -, rfl⟩ := execDGet_eq_next.1 h; exact .inl hk
  | dAppend e =>
    obtain ⟨-, rfl⟩ := execDAppend_eq_next.1 h
    exact .inl ((State.read_dictStore_other (by omega)).trans hk)
  | dReset => cases h; exact dictReset_entry hk
  | dTeardown => cases h; exact .inr (.inr ⟨rfl, rfl⟩)
  | _ => cases hi

end Sys2Proof.Machine

end

/-! ## The obligations on the dictionary -/

section

namespace Sys2Proof.Proofs

open Machine

/-- Settles O16: what the slots held before does not enter into `State.read_dictInit`. -/
theorem dictInitSeedsLiterals : Obligations.DictInitSeedsLiterals := fun s =>
  ⟨s.dictInit, rfl, fun k hk => by rw [State.read_dictInit, if_pos hk],
    fun k hk => by rw [State.read_dictInit, if_neg (by omega)], rfl, rfl⟩

/-- Settles O18: the lookup gives nothing from the cursor up, and each of the append's two guards stops it. -/
theorem dictDomainStops : Obligations.DictDomainStops := by
  refine ⟨fun s c h => ?_, fun s entry h => ?_, fun s entry h hd => ?_⟩
  · show execDGet c s = _
    rw [execDGet, State.dictGet_eq_none h]
  · show execDAppend entry s = _
    rw [execDAppend, State.dictAppend_eq_fault h, andThen_fault]
  · show execDAppend entry s = _
    rw [execDAppend, State.dictAppend_eq_refused h hd, andThen_refused]

/-- Settles O19: inside its domain the append is `State.dictStore`, and the cursor does not wrap. -/
theorem dictAppendStoresAtCursor : Obligations.DictAppendStoresAtCursor := by
  intro s entry hlo hhi h2 hl
  refine ⟨_, execDAppend_eq_next.2 ⟨⟨hlo, hhi, h2, hl⟩, rfl⟩, State.read_dictStore_same,
    fun k hk => State.read_dictStore_other hk, State.dictStore_nfi_toNat (entry := entry) hhi, ?_⟩
  rw [low12_eq]; rfl

/-- Settles O20: a reset reads by `State.read_dictReset`, whatever the cursor was. -/
theorem dictResetKeepsLiteralSlots : Obligations.DictResetKeepsLiteralSlots := fun s =>
  ⟨s.dictReset, rfl, fun k hk => by rw [State.read_dictReset, if_pos hk],
    fun k hk => by rw [State.read_dictReset, if_neg (by omega)], rfl, rfl⟩

/-- Settles O22: DI1 and DI2 operation by operation; the others write from slot 256 up or not at all. -/
theorem dictOpsKeepFilledAndLiterals : Obligations.DictOpsKeepFilledAndLiterals := by
  intro s t i hi hf hl hr h
  have hfull : i = .dReset → 256 ≤ s.nfi.toNat := fun hreset => by rw [hr hreset]; decide
  obtain ⟨hft, hlt⟩ := dictOp_keeps_filled_and_literals hi hf hl hfull h
  exact ⟨hft, hlt, fun hinit htear k hk => dictOp_reads_literal_slot hi hinit htear h hk⟩

/-- Settles O23: the frame of the five operations, then the slots of the lookup and of the append. -/
theorem dictOpsFrame : Obligations.DictOpsFrame := by
  intro s t i hi h
  have hframe := dictOp_frame hi h
  refine ⟨hframe, fun a => by rw [hframe], ?_, ?_⟩
  · rintro c rfl
    obtain ⟨_, -, rfl⟩ := execDGet_eq_next.1 h
    exact ⟨rfl, rfl⟩
  · rintro entry rfl k hk
    obtain ⟨-, rfl⟩ := execDAppend_eq_next.1 h
    exact State.read_dictStore_other hk

/-- Settles O24: by the kind of the row, a populated slot being below the cursor. -/
theorem entryUnchangedWhileItLives : Obligations.EntryUnchangedWhileItLives := by
  intro s t i k entry hd hs hf h hk
  have hlt := DictFilled.lt_of_read hf hk
  rcases row_kinds hs with hi | hi | hi | hi
  · exact .inl (by rw [fetchForm_frame hi h]; exact hk)
  · exact .inr (.inr (by rw [endingClass_frame hi h]; exact ⟨rfl, rfl⟩))
  · exact emittingClass_entry hi h hlt hk
  · exact dictOp_entry hi hd h hlt hk

/-- Settles O17: below the cursor the lookup reads the slot. -/
theorem dictGetReturnsWholeEntry : Obligations.DictGetReturnsWholeEntry :=
  fun _ _ entry hc he => execDGet_eq_next.2 ⟨entry, (State.dictGet_eq hc).trans he, rfl⟩

/-- Settles O21: a teardown overwrites the whole dictionary, so a second one finds what it would write. -/
theorem dictTeardownEmptiesAll : Obligations.DictTeardownEmptiesAll :=
  fun s => ⟨s.dictTeardown, rfl, fun k => Cells.read_nil k, rfl, rfl, rfl⟩

end Sys2Proof.Proofs

end

/-! ## The classes of the loop and of the first code

What `E.FIRST` answers, what Commit leaves of the state before it, and which class ends the session. -/

section

namespace Sys2Proof.Machine

variable {s t u : State} {i j : Instr} {f : Fetched} {c : Code} {entry bytes : List Byte}

/-! ### A code against the cursor, as numbers -/

theorem zext13_lt_iff : zext13 c < f ↔ c.toNat < f.toNat := by rw [BitVec.lt_def, zext13_toNat]

theorem lt_zext13_iff : f < zext13 c ↔ f.toNat < c.toNat := by rw [BitVec.lt_def, zext13_toNat]

theorem zext13_le_iff : zext13 c ≤ f ↔ c.toNat ≤ f.toNat := by rw [BitVec.le_def, zext13_toNat]

theorem le_zext13_iff : f ≤ zext13 c ↔ f.toNat ≤ c.toNat := by rw [BitVec.le_def, zext13_toNat]

theorem zext13_eq_iff : zext13 c = f ↔ c.toNat = f.toNat := by rw [← BitVec.toNat_inj, zext13_toNat]

/-! ### The first code -/

theorem low12_literal (b : Byte) : low12 (b.setWidth 13) = BitVec.ofNat 12 b.toNat := by
  apply BitVec.eq_of_toNat_eq
  rw [low12_eq, BitVec.toNat_setWidth]
  simp

/-- The entry of a literal code is its byte (R34). -/
theorem dictGet_literal (hn : s.nfi = Config.firstFree) (hl : LiteralsHeld s) (b : Byte) :
    s.dictGet (low12 (b.setWidth 13)) = some [b] := by
  have hb : (low12 (b.setWidth 13)).toNat = b.toNat := by
    rw [low12_literal, BitVec.toNat_ofNat]; omega
  have hc : s.nfi.toNat = 256 := congrArg BitVec.toNat hn
  rw [State.dictGet_eq (by omega), hb, hl hc.ge b.toNat b.isLt, BitVec.ofNat_toNat, BitVec.setWidth_eq]

/-- `E.FIRST` emits its byte and enters the loop (R151). -/
theorem eFirst_eq (hs : s.state = .start) (hn : s.nfi = Config.firstFree) (hl : LiteralsHeld s) (b : Byte) :
    exec (.eFirst b) s =
      .next { s with
        cur := b.setWidth 13, prev := BitVec.ofNat 12 b.toNat, output := s.output ++ [b], state := .decoding } :=
  execEFirst_eq_next.2 ⟨⟨hs, hn⟩, [b], dictGet_literal hn hl b, by rw [← low12_literal]; rfl⟩

/-! ### Commit -/

/-- What Commit of `entry` on the code `c`, which then names `bytes`, makes of `s` (R159). -/
structure Committed (s : State) (c : Code) (entry bytes : List Byte) (t : State) : Prop where
  frame : t = { s with
    cur := zext13 c, prev := c, output := s.output ++ bytes, dict := t.dict, nfi := t.nfi }
  room : s.nfi.toNat ≠ 4095 →
    t.nfi.toNat = s.nfi.toNat + 1 ∧ Cells.read t.dict s.nfi.toNat = some entry ∧
      ∀ k, k ≠ s.nfi.toNat → Cells.read t.dict k = Cells.read s.dict k
  full : s.nfi.toNat = 4095 →
    t.nfi = 256#13 ∧ (∀ k < 256, Cells.read t.dict k = Cells.read s.dict k) ∧
      ∀ k, 256 ≤ k → Cells.read t.dict k = none

/-- The entries after an append: the new one at the cursor, the others as before. -/
theorem State.dictGet_dictStore (hn : s.nfi.toNat ≤ 4095) (hc : c.toNat ≤ s.nfi.toNat) :
    (s.dictStore entry).dictGet c =
      if c.toNat = s.nfi.toNat then some entry else Cells.read s.dict c.toNat := by
  rw [State.dictGet_eq (by rw [State.dictStore_nfi_toNat hn]; omega)]
  split
  · next h => rw [h, State.read_dictStore_same]
  · next h => exact State.read_dictStore_other h

/-- Commit runs on an entry that can be appended and a code that names one after the append (R159). -/
theorem commit_committed (hlo : 256 ≤ s.nfi.toNat) (hhi : s.nfi.toNat ≤ 4095) (h2 : 2 ≤ entry.length)
    (hl : entry.length ≤ 3841) (hb : (s.dictStore entry).dictGet c = some bytes) :
    ∃ t, (s.take (zext13 c)).commit entry = .next t ∧ Committed s c entry bytes t := by
  have hget : ((s.take (zext13 c)).dictStore entry).dictGet (low12 (s.take (zext13 c)).cur) = some bytes := by
    rw [State.take_cur, low12_zext13]; exact hb
  have hread := State.read_commit (s := s.take (zext13 c)) (entry := entry) (bytes := bytes) rfl rfl hhi
  have ht := State.commit_eq_next (s := s.take (zext13 c)).2 ⟨⟨hlo, hhi, h2, hl⟩, bytes, hget, rfl⟩
  refine ⟨_, ht, ?_, fun hroom => ?_, fun hfull => ?_⟩
  · have hprev : (((s.take (zext13 c)).dictStore entry).emit bytes).resetIfFull.retainCode.prev = c := by simp
    have houtput : (((s.take (zext13 c)).dictStore entry).emit bytes).resetIfFull.retainCode.output =
      s.output ++ bytes := by simp
    rw [State.commit_frame ht, hprev, houtput]; rfl
  · refine ⟨(State.commit_room (s := s.take (zext13 c)) (by rw [State.take_nfi]; omega)).1, ?_, fun k hk => ?_⟩
    · rw [hread, State.take_nfi, if_neg (by omega), if_pos rfl]
    · rw [hread, State.take_nfi, if_neg (by omega), if_neg hk, State.take_dict]
  · refine ⟨(State.commit_full (s := s.take (zext13 c)) hfull).1, fun k hk => ?_, fun k hk => ?_⟩
    · rw [hread, if_neg (by omega), State.take_nfi, if_neg (by omega), State.take_dict]
    · rw [hread, if_pos ⟨hfull, hk⟩]

/-- An emitting class writes no slot but the cursor's, short of a reset (R157 to R159). -/
theorem emittingClass_slots (hi : IsEmittingClass i = true) (h : exec i s = .next t) {k : Nat}
    (hk : k ≠ s.nfi.toNat) :
    Cells.read t.dict k = Cells.read s.dict k ∨ (256 ≤ k ∧ t.nfi = 256#13 ∧ Cells.read t.dict k = none) := by
  rcases emittingClass_cases hi h with ⟨f, bytes, rfl⟩ | ⟨f, entry, hc⟩
  · exact .inl rfl
  · obtain ⟨⟨-, hhi, -⟩, bytes, -, rfl⟩ := State.commit_eq_next.1 hc
    have hread := State.read_commit (s := s.take f) (entry := entry) (bytes := bytes) rfl rfl hhi k
    by_cases hfreed : s.nfi.toNat = 4095 ∧ 256 ≤ k
    · exact .inr ⟨hfreed.2, (State.commit_full (s := s.take f) hfreed.1).1, hread.trans (if_pos hfreed)⟩
    · exact .inl (hread.trans ((if_neg hfreed).trans (if_neg hk)))

/-! ### The state a class leaves -/

theorem endingClass_ended (hi : IsEndingClass i = true) (h : exec i s = .next t) : t.ended = true := by
  cases i with
  | eFirstBad f => obtain ⟨-, rfl⟩ := execEFirstBad_eq_next.1 h; rfl
  | eEos => obtain ⟨-, rfl⟩ := execEEos_eq_next.1 h; rfl
  | eBad c => obtain ⟨-, rfl⟩ := execEBad_eq_next.1 h; rfl
  | eStale c => obtain ⟨-, rfl⟩ := execEStale_eq_next.1 h; rfl
  | _ => cases hi

theorem emittingClass_decoding (hi : IsEmittingClass i = true) (h : exec i s = .next t) : t.state = .decoding := by
  cases i with
  | eFirst b => obtain ⟨-, bytes, -, rfl⟩ := execEFirst_eq_next.1 h; rfl
  | eKwkwk c =>
    obtain ⟨⟨hs, -⟩, _, _, -, hc⟩ := execEKwkwk_eq_next.1 h
    rw [State.commit_frame hc]; exact hs
  | eKnown c =>
    obtain ⟨⟨hs, -⟩, _, _, _, -, -, hc⟩ := execEKnown_eq_next.1 h
    rw [State.commit_frame hc]; exact hs
  | _ => cases hi

theorem not_endingClass_of_emittingClass (hi : IsEmittingClass i = true) : ¬ IsEndingClass i = true := by
  cases i <;> simp_all [IsEmittingClass, IsEndingClass]

/-- A form that returns a code consumes a byte (R164). -/
theorem fetchForm_consumes (hi : IsFetchForm i = true) (h : exec i s = .next u) :
    s.pos < u.pos ∨ u.ret = .fetched Config.eos := by
  cases i with
  | ncPair0 a n => obtain ⟨-, rfl⟩ := execNcPair0_eq_next.1 h; exact .inl (Nat.lt_add_of_pos_right Nat.two_pos)
  | ncPair1 b => obtain ⟨-, rfl⟩ := execNcPair1_eq_next.1 h; exact .inl (Nat.lt_succ_self s.pos)
  | ncTail a p =>
    obtain ⟨-, rfl⟩ := (execNcTail_eq_next (p := p)).1 h; exact .inl (Nat.lt_add_of_pos_right Nat.two_pos)
  | ncEos0 => obtain ⟨-, rfl⟩ := execNcEos0_eq_next.1 h; exact .inr rfl
  | ncEos1 x => obtain ⟨-, rfl⟩ := (execNcEos1_eq_next (x := x)).1 h; exact .inr rfl
  | ncEosn => obtain ⟨-, rfl⟩ := execNcEosn_eq_next.1 h; exact .inr rfl
  | _ => cases hi

/-- Handling one code ends the session or, the value being no sentinel, consumes input and stays in the loop (R164). -/
theorem code_ends_or_consumes (hi : IsFetchForm i = true) (hu : exec i s = .next u) (hr : u.ret = .fetched f)
    (hj : u.classify f = .ok j) (ht : exec j u = .next t) :
    t.ended = true ∨ (t.state = .decoding ∧ s.pos < t.pos ∧ t.len = s.len) := by
  rcases State.classify_isClass hj with hk | hk
  · exact .inl (endingClass_ended hk ht)
  · refine .inr ⟨emittingClass_decoding hk ht, ?_⟩
    rw [emittingClass_frame hk ht]
    rcases fetchForm_consumes hi hu with hpos | heos
    · exact ⟨hpos, by rw [fetchForm_frame hi hu]⟩
    · cases hr.symm.trans heos
      exact absurd (State.classify_eos hj) (not_endingClass_of_emittingClass hk)

/-! ### The step in the loop and of a start command -/

theorem step_decoding (hr : s.rst = false) (hs : s.state = .decoding) : step s = stepDecoding s := by
  simp [step, nextStep, hr, hs]

/-- A step in the loop runs the form at `pos` and the class of its value (R153, R165). -/
theorem step_eq_class (hr : s.rst = false) (hs : s.state = .decoding) (hi : s.fetch = .ok i)
    (hu : exec i s = .next u) (hf : u.ret = .fetched f) (hj : u.classify f = .ok j) : step s = exec j u := by
  rw [step_decoding hr hs, stepDecoding, hi]
  exact runCode_eq hi hu hf hj

/-- A step with a start command runs the first form of the fresh session and the class of its value (R180, R185). -/
theorem step_start_eq_class (hr : s.rst = false) (hs : s.state ≠ .decoding) (hstart : s.start = true)
    (hi : (s.beginSession s.inLen).fetch = .ok i) (hu : exec i (s.beginSession s.inLen) = .next u)
    (hf : u.ret = .fetched f) (hj : u.classify f = .ok j) : step s = exec j u := by
  have hstep : step s = execSStart s.inLen s := by simp [step, nextStep, hr, hs, hstart]
  rw [hstep, execSStart, if_neg hs, hi]
  exact runCode_eq hi hu hf hj

end Sys2Proof.Machine

end

/-! ## The table decoder's own laws

`decodeLater` walks a list of codes; each code that names an entry lengthens the table by one entry. -/

section

namespace Sys2Proof

open Machine

/-- The entry a code adds to the table: that of `prev`, with the first byte of the entry the code names (R157, R158). -/
def addedEntry (table : List (List Byte)) (prev : Nat) (c : Code) : List Byte :=
  table.getD prev [] ++
    (if c.toNat = table.length then table.getD prev [] else table.getD c.toNat []).take 1

/-- The table after `resetIfFull`: the literals alone once every slot is taken (R159 line 3). -/
def refreshedTable (table : List (List Byte)) : List (List Byte) :=
  if table.length = 4096 then literalTable else table

/-- An observation with bytes emitted before it. -/
def Machine.Observation.after (out : List Byte) (o : Observation) : Observation :=
  { o with output := out ++ o.output }

variable {table : List (List Byte)} {prev : Nat} {c : Code}

theorem Machine.Observation.after_append (x y : List Byte) (o : Observation) :
    (o.after y).after x = o.after (x ++ y) := by
  simp [Observation.after]

theorem decodeLater_of_bad (hc : table.length < c.toNat) (rest : List Code) :
    decodeLater table prev (c :: rest) = ⟨.failed, .invalidCode, false, []⟩ := if_pos hc

theorem decodeLater_of_stale (hc : c.toNat ≤ table.length) (hp : table.length ≤ prev) (rest : List Code) :
    decodeLater table prev (c :: rest) = ⟨.failed, .stalePreviousCode, false, []⟩ :=
  (if_neg (Nat.not_lt.2 hc)).trans (if_pos hp)

/-- A code that names an entry emits it from the lengthened table (R159). -/
theorem decodeLater_of_named (hc : c.toNat ≤ table.length) (hp : prev < table.length) (rest : List Code) :
    decodeLater table prev (c :: rest) =
      (decodeLater (refreshedTable (table ++ [addedEntry table prev c])) c.toNat rest).after
        ((table ++ [addedEntry table prev c]).getD c.toNat []) :=
  (if_neg (Nat.not_lt.2 hc)).trans (if_neg (Nat.not_le.2 hp))

theorem decodeCodes_of_literal (hc : c.toNat < 256) (rest : List Code) :
    decodeCodes (c :: rest) = (decodeLater literalTable c.toNat rest).after [BitVec.ofNat 8 c.toNat] :=
  if_neg (Nat.not_le.2 hc)

theorem decodeCodes_of_no_literal (hc : 256 ≤ c.toNat) (rest : List Code) :
    decodeCodes (c :: rest) = ⟨.failed, .invalidFirstCode, false, []⟩ := if_pos hc

/-- A list of codes leaves no input over (R23). -/
theorem decodeLater_trunc (codes : List Code) (table : List (List Byte)) (prev : Nat) :
    (decodeLater table prev codes).trunc = false := by
  induction codes generalizing table prev with
  | nil => rfl
  | cons c rest ih =>
    rcases Nat.lt_or_ge table.length c.toNat with hc | hc
    · rw [decodeLater_of_bad hc]
    · rcases Nat.lt_or_ge prev table.length with hp | hp
      · rw [decodeLater_of_named hc hp]; exact ih _ _
      · rw [decodeLater_of_stale hc hp]

theorem decodeCodes_trunc (codes : List Code) : (decodeCodes codes).trunc = false := by
  cases codes with
  | nil => rfl
  | cons c rest =>
    rcases Nat.lt_or_ge c.toNat 256 with hc | hc
    · rw [decodeCodes_of_literal hc]; exact decodeLater_trunc rest _ _
    · rw [decodeCodes_of_no_literal hc]

theorem getElem?_literalTable (k : Nat) : literalTable[k]? = if k < 256 then some [BitVec.ofNat 8 k] else none := by
  unfold literalTable
  by_cases h : k < 256 <;> simp [h]

theorem length_literalTable : literalTable.length = 256 := by simp [literalTable]

theorem length_le_length_pack (codes : List Code) : codes.length ≤ (pack codes).length := by
  induction codes using pack.induct with
  | case1 => exact Nat.le_refl 0
  | case2 c => exact Nat.le_succ 1
  | case3 a b rest ih => simp only [pack, List.length_cons]; omega

end Sys2Proof

end

/-! ## The dictionary as a table -/

section

namespace Sys2Proof

open Machine

/-- The dictionary holds the table's entries, and the cursor is its length. -/
structure Tabled (s : State) (table : List (List Byte)) : Prop where
  cursor : s.nfi.toNat = table.length
  slots : ∀ k, Cells.read s.dict k = table[k]?

variable {s t : State} {table : List (List Byte)} {entry : List Byte} {c : Code}

namespace Tabled

theorem beginSession (len : Nat) : Tabled (s.beginSession len) literalTable where
  cursor := length_literalTable.symm
  slots k := (Dict.read_literals k).trans (getElem?_literalTable k).symm

theorem dictGet (h : Tabled s table) (hc : c.toNat < table.length) :
    s.dictGet c = some (table.getD c.toNat []) := by
  rw [State.dictGet_eq (h.cursor ▸ hc), h.slots, List.getElem?_eq_getElem hc, List.getD_eq_getElem _ _ hc]

/-- What a lookup gives is the table's entry. -/
theorem getD_of_dictGet (h : Tabled s table) (he : s.dictGet c = some entry) : table.getD c.toNat [] = entry := by
  rw [List.getD_eq_getElem?_getD, ← h.slots, (State.dictGet_eq_some he).2]; rfl

/-- An append adds the entry at the end (R132). -/
theorem dictStore (h : Tabled s table) (hn : s.nfi.toNat ≤ 4095) :
    Tabled (s.dictStore entry) (table ++ [entry]) where
  cursor := by rw [State.dictStore_nfi_toNat hn, h.cursor, List.length_append, List.length_singleton]
  slots k := by
    rcases Nat.lt_trichotomy k table.length with hk | hk | hk
    · rw [State.read_dictStore_other (by rw [h.cursor]; omega), h.slots, List.getElem?_append_left hk]
    · rw [hk, ← h.cursor, State.read_dictStore_same, h.cursor, List.getElem?_concat_length]
    · rw [State.read_dictStore_other (by rw [h.cursor]; omega), h.slots, List.getElem?_eq_none (by omega),
        List.getElem?_eq_none (by simp; omega)]

/-- A full table is reset to the literals, which its slots still hold (R133, R34). -/
theorem resetIfFull (h : Tabled s table) (hl : LiteralsHeld s) : Tabled s.resetIfFull (refreshedTable table) := by
  by_cases hfull : table.length = 4096
  · have hn : s.nfi.toNat = 4096 := h.cursor.trans hfull
    rw [State.resetIfFull_of_full s (BitVec.eq_of_toNat_eq hn), refreshedTable, if_pos hfull]
    refine ⟨length_literalTable.symm, fun k => ?_⟩
    rw [State.read_dictReset, getElem?_literalTable]
    by_cases hk : k < 256
    · rw [if_pos hk, if_pos hk, hl (by omega) k hk]
    · rw [if_neg hk, if_neg hk]
  · have hroom : s.nfi ≠ Config.capacity := fun hc => hfull (h.cursor ▸ congrArg BitVec.toNat hc)
    rw [State.resetIfFull_of_room s hroom, refreshedTable, if_neg hfull]
    exact h

/-- Commit on a code appends the entry, emits what the code then names and retains the code (R159). -/
theorem commit (h : Tabled s table) (hl : LiteralsHeld s) (hc : (s.take (zext13 c)).commit entry = .next t) :
    Tabled t (refreshedTable (table ++ [entry])) ∧ t.prev = c ∧
      t.output = s.output ++ (table ++ [entry]).getD c.toNat [] := by
  obtain ⟨⟨hlo, hhi, -⟩, bytes, hget, rfl⟩ := State.commit_eq_next.1 hc
  have hstored : Tabled ((s.take (zext13 c)).dictStore entry) (table ++ [entry]) :=
    Tabled.dictStore (s := s.take (zext13 c)) ⟨h.cursor, h.slots⟩ hhi
  have hlit : LiteralsHeld ((s.take (zext13 c)).dictStore entry) :=
    literalsHeld_dictStore (s := s.take (zext13 c)) hl hlo
  rw [State.take_cur, low12_zext13] at hget
  refine ⟨?_, by simp, by rw [hstored.getD_of_dictGet hget]; simp⟩
  have hreset := Tabled.resetIfFull (s := ((s.take (zext13 c)).dictStore entry).emit bytes)
    ⟨hstored.cursor, hstored.slots⟩ hlit
  exact ⟨hreset.cursor, hreset.slots⟩

end Tabled

/-- A code at or below the cursor, with `prev` below it, has a class that commits the table's added entry (R157, R158). -/
theorem named_code_commits (hlive : LiveInv s) (h : Tabled s table) (hs : s.state = .decoding)
    (hc : c.toNat ≤ table.length) (hp : s.prev.toNat < table.length) :
    ∃ j t, s.classify (zext13 c) = .ok j ∧ IsEmittingClass j = true ∧ exec j s = .next t ∧ StateInv t ∧
      (s.take (zext13 c)).commit (addedEntry table s.prev.toNat c) = .next t := by
  have hprev : zext13 s.prev < s.nfi := zext13_lt_iff.2 (h.cursor ▸ hp)
  rcases Nat.eq_or_lt_of_le hc with heq | hlt
  · have hcn : zext13 c = s.nfi := zext13_eq_iff.2 (heq.trans h.cursor.symm)
    obtain ⟨t, ht, hinv⟩ := hlive.eKwkwk_runs hs hcn hprev
    obtain ⟨-, b, rest, hold, hcommit⟩ := execEKwkwk_eq_next.1 ht
    have hentry : addedEntry table s.prev.toNat c = b :: rest ++ [b] := by
      rw [addedEntry, if_pos heq, h.getD_of_dictGet hold]; rfl
    exact ⟨_, t, classify_encode (i := .eKwkwk c) ⟨hs, hcn, hprev⟩ rfl, rfl, ht, hinv, hentry ▸ hcommit⟩
  · have hcn : zext13 c < s.nfi := zext13_lt_iff.2 (h.cursor ▸ hlt)
    obtain ⟨t, ht, hinv⟩ := hlive.eKnown_runs hs hcn hprev
    obtain ⟨-, p, b, rest, hold, hnamed, hcommit⟩ := execEKnown_eq_next.1 ht
    have hentry : addedEntry table s.prev.toNat c = p ++ [b] := by
      rw [addedEntry, if_neg hlt.ne, h.getD_of_dictGet hold, h.getD_of_dictGet hnamed]; rfl
    exact ⟨_, t, classify_encode (i := .eKnown c) ⟨hs, hcn, hprev⟩ rfl, rfl, ht, hinv, hentry ▸ hcommit⟩

end Sys2Proof

end

/-! ## A session against the table decoder

Between steps the core stands for a table, a previous code and the codes still unread; each step in the loop is one code of
`decodeLater`, until a code fails or the codes are used up. -/

section

namespace Sys2Proof

open Machine

variable {s t u : State} {i j : Instr} {f : Fetched} {c : Code} {codes rest : List Code} {table : List (List Byte)}

/-! ### The codes still to be fetched -/

/-- The codes the reader still has before it: packed bytes, or after half a group a kept nibble and the byte that completes it. -/
inductive CodesLeft (s : State) : List Code → Prop
  | aligned {codes : List Code} (hp : s.loPend = false) (h : Unread s (pack codes)) : CodesLeft s codes
  | pending {c : Code} {rest : List Code} (hp : s.loPend = true) (hn : s.loNib = (c >>> 8).setWidth 4)
      (h : Unread s (c.setWidth 8 :: pack rest)) : CodesLeft s (c :: rest)

/-- The next fetch returns the first code left (R96, R111 to R113). -/
theorem CodesLeft.fetch_code (h : CodesLeft s (c :: rest)) :
    ∃ i u, s.fetch = .ok i ∧ exec i s = .next u ∧ u.ret = .fetched (zext13 c) ∧ CodesLeft u rest := by
  cases h with
  | aligned hp h =>
    cases rest with
    | nil =>
      have hu : exec (.ncTail c 0#4) s = .next _ := (execNcTail_eq_next (p := 0#4)).2 ⟨⟨hp, h.rem_eq⟩, rfl⟩
      exact ⟨_, _, h.fetch (rest := []) (formSelected_of_runs rfl hu) rfl, hu, rfl,
        .aligned hp (Unread.of_runs (rest := []) h rfl rfl hu)⟩
    | cons b rest =>
      have hrem : 3 ≤ s.rem := by rw [h.rem_eq]; simp [pack]
      have hu : exec (.ncPair0 c ((b >>> 8).setWidth 4)) s = .next _ := execNcPair0_eq_next.2 ⟨⟨hp, hrem⟩, rfl⟩
      exact ⟨_, _, Unread.fetch h (formSelected_of_runs rfl hu) rfl, hu, rfl,
        .pending rfl rfl (Unread.of_runs h rfl rfl hu)⟩
  | pending hp hn h =>
    have hrem : 1 ≤ s.rem := by rw [h.rem_eq]; simp
    have hu : exec (.ncPair1 (c.setWidth 8)) s = .next _ := execNcPair1_eq_next.2 ⟨⟨hp, hrem⟩, rfl⟩
    refine ⟨_, _, Unread.fetch (used := [c.setWidth 8]) h (formSelected_of_runs rfl hu) rfl, hu, ?_,
      .aligned rfl (Unread.of_runs (used := [c.setWidth 8]) h rfl rfl hu)⟩
    rw [State.returning_ret, hn, codeB_halves]

/-- With no code left the fetch returns the sentinel (R114). -/
theorem CodesLeft.fetch_end (h : CodesLeft s []) :
    s.fetch = .ok .ncEos0 ∧ exec .ncEos0 s = .next (s.returning (.fetched Config.eos)) := by
  cases h with
  | aligned hp h =>
    have hsel : FormSelected s.loPend s.rem .ncEos0 := ⟨hp, h.rem_eq⟩
    exact ⟨h.fetch (used := []) (rest := []) hsel rfl, execNcEos0_eq_next.2 ⟨hsel, rfl⟩⟩

/-- An emitting class does not touch the reader or the input. -/
theorem CodesLeft.of_emittingClass (h : CodesLeft s codes) (hj : IsEmittingClass j = true)
    (ht : exec j s = .next t) : CodesLeft t codes := by
  rw [emittingClass_frame hj ht]
  cases h with
  | aligned hp h => exact .aligned hp ⟨h.len, h.cells⟩
  | pending hp hn h => exact .pending hp hn ⟨h.len, h.cells⟩

/-! ### One code -/

/-- A live session on the input of a list of codes, of which `codes` are left, with the dictionary that `table` lists. -/
structure Tracks (s : State) (table : List (List Byte)) (codes : List Code) : Prop where
  live : LiveInv s
  rst : s.rst = false
  trunc : s.trunc = false
  tabled : Tabled s table
  left : CodesLeft s codes

namespace Tracks

theorem beginSession (hr : s.rst = false) (hin : s.input = Memory.ofBytes (pack codes)) :
    Tracks (s.beginSession (pack codes).length) literalTable codes where
  live := liveInv_beginSession (hin ▸ Memory.wf_ofBytes _) _
  rst := hr
  trunc := rfl
  tabled := Tabled.beginSession _
  left := .aligned rfl (Unread.of_input_at_start rfl rfl hin)

/-- The fetch of a code leaves the engine's registers and takes the code off the list. -/
theorem fetch_code (h : Tracks s table (c :: rest)) :
    ∃ i u, s.fetch = .ok i ∧ exec i s = .next u ∧ u.ret = .fetched (zext13 c) ∧ Tracks u table rest ∧
      u.state = s.state ∧ u.prev = s.prev ∧ u.output = s.output := by
  obtain ⟨i, u, hi, hu, hf, hleft⟩ := h.left.fetch_code
  obtain ⟨hsel, hform⟩ := State.fetch_selected hi
  obtain ⟨u', -, hu', -, -, hlive, -⟩ := h.live.form_runs hsel
  cases hu.symm.trans hu'
  have htrunc : u.trunc = s.trunc := (fetchForm_trunc hform hu).resolve_right fun he =>
    zext13_ne_eos c (Ret.fetched.inj (hf.symm.trans he))
  have hframe := fetchForm_frame hform hu
  refine ⟨i, u, hi, hu, hf, ⟨hlive, ?_, htrunc.trans h.trunc, ⟨?_, ?_⟩, hleft⟩, ?_, ?_, ?_⟩
  · rw [hframe]; exact h.rst
  · rw [hframe]; exact h.tabled.cursor
  · rw [hframe]; exact h.tabled.slots
  · rw [hframe]
  · rw [hframe]
  · rw [hframe]

/-- An emitting class keeps what does not concern the dictionary. -/
theorem of_emittingClass (h : Tracks s table codes) (hj : IsEmittingClass j = true) (ht : exec j s = .next t)
    (hinv : StateInv t) {table' : List (List Byte)} (ht' : Tabled t table') : Tracks t table' codes where
  live := hinv.liveInv (emittingClass_decoding hj ht)
  rst := by rw [emittingClass_frame hj ht]; exact h.rst
  trunc := by rw [emittingClass_frame hj ht]; exact h.trunc
  tabled := ht'
  left := h.left.of_emittingClass hj ht

end Tracks

/-! ### The run -/

/-- A run from `s` ends within `n` steps with the observation `o`, Decoding in every state before its last (R182). -/
def EndsWith (s : State) (n : Nat) (o : Observation) : Prop :=
  ∃ k u, k ≤ n ∧ core.run k s = .next u ∧ u.ended = true ∧ u.observation = o ∧
    ∀ j < k, ∃ v, core.run j s = .next v ∧ v.state = .decoding

theorem EndsWith.of_ended (h : s.ended = true) (n : Nat) : EndsWith s n s.observation :=
  ⟨0, s, Nat.zero_le n, core_run_zero s, h, rfl, fun _ hj => absurd hj (Nat.not_lt_zero _)⟩

theorem EndsWith.of_step {n : Nat} {o : Observation} (hs : s.state = .decoding) (ht : step s = .next t)
    (h : EndsWith t n o) : EndsWith s (n + 1) o := by
  obtain ⟨k, u, hk, hrun, hend, ho, hbefore⟩ := h
  refine ⟨k + 1, u, Nat.succ_le_succ hk, (core_run_succ k ht).trans hrun, hend, ho, fun j hj => ?_⟩
  cases j with
  | zero => exact ⟨s, core_run_zero s, hs⟩
  | succ j =>
    obtain ⟨v, hv, hd⟩ := hbefore j (Nat.lt_of_succ_lt_succ hj)
    exact ⟨v, (core_run_succ j ht).trans hv, hd⟩

/-- Taking an error ends the session with the bytes emitted before (R217, R218). -/
theorem observation_raise (htrunc : s.trunc = false) (f : Fetched) (e : ErrKind) :
    ((s.take f).raise e).observation = (⟨.failed, e, false, []⟩ : Observation).after s.output := by
  simp [State.observation, Observation.after, htrunc]

/-- A step that takes an error is the last one. -/
theorem EndsWith.of_raise {e : ErrKind} (hs : s.state = .decoding) (htrunc : u.trunc = false)
    (hout : u.output = s.output) (ht : step s = .next ((u.take f).raise e)) (n : Nat) :
    EndsWith s (n + 1) ((⟨.failed, e, false, []⟩ : Observation).after s.output) := by
  rw [← hout, ← observation_raise htrunc]
  exact EndsWith.of_step hs ht (EndsWith.of_ended rfl n)

/-- A session in the loop ends with what the codes left decode to, behind what it has emitted (R153 to R159, R162). -/
theorem Tracks.endsWith (h : Tracks s table codes) (hs : s.state = .decoding) :
    EndsWith s (codes.length + 1) ((decodeLater table s.prev.toNat codes).after s.output) := by
  induction codes generalizing s table with
  | nil =>
    obtain ⟨hi, hu⟩ := h.left.fetch_end
    have hstep := step_eq_class h.rst hs hi hu rfl (classify_encode (i := .eEos) (s := s.returning _) hs rfl)
    have hend := EndsWith.of_step hs (hstep.trans (execEEos_eq_next.2 ⟨hs, rfl⟩)) (EndsWith.of_ended rfl 0)
    simpa [State.observation, Observation.after, decodeLater, h.live.noErr, h.trunc] using hend
  | cons c rest ih =>
    obtain ⟨i, u, hi, hu, hf, hut, hstate, hprev, hout⟩ := h.fetch_code
    have hus : u.state = .decoding := hstate.trans hs
    have hcursor := hut.tabled.cursor
    have hstep {j : Instr} (hcl : u.classify (zext13 c) = .ok j) : step s = exec j u :=
      step_eq_class h.rst hs hi hu hf hcl
    rcases Nat.lt_or_ge table.length c.toNat with hbad | hc
    · have hsel : ClassSelected u (.eBad c) := ⟨hus, lt_zext13_iff.2 (hcursor ▸ hbad)⟩
      rw [decodeLater_of_bad hbad]
      exact EndsWith.of_raise hs hut.trunc hout
        ((hstep (classify_encode hsel rfl)).trans (execEBad_eq_next.2 ⟨hsel, rfl⟩)) _
    rcases Nat.lt_or_ge s.prev.toNat table.length with hp | hstale
    · obtain ⟨j, t, hcl, hj, ht, hinv, hcommit⟩ := named_code_commits hut.live hut.tabled hus hc (hprev ▸ hp)
      obtain ⟨htab, htprev, htout⟩ := hut.tabled.commit hut.live.dict.literals hcommit
      have hrest := ih (hut.of_emittingClass hj ht hinv htab) (emittingClass_decoding hj ht)
      rw [htprev, htout, hout, hprev, ← Observation.after_append, ← decodeLater_of_named hc hp] at hrest
      exact EndsWith.of_step hs ((hstep hcl).trans ht) hrest
    · have hsel : ClassSelected u (.eStale c) :=
        ⟨hus, zext13_le_iff.2 (hcursor ▸ hc), le_zext13_iff.2 (by rw [hcursor, hprev]; exact hstale)⟩
      rw [decodeLater_of_stale hc hstale]
      exact EndsWith.of_raise hs hut.trunc hout
        ((hstep (classify_encode hsel rfl)).trans (execEStale_eq_next.2 ⟨hsel, rfl⟩)) _

/-- A first value that is no literal ends the session with nothing emitted (R152). -/
theorem firstBad_endsWith (hs : s.state = .start) (hn : s.nfi = Config.firstFree) (hlo : s.nfi ≤ f)
    (hhi : f ≤ Config.eos) (htrunc : s.trunc = false) (hout : s.output = []) (n : Nat) :
    ∃ t, s.classify f = .ok (.eFirstBad f) ∧ exec (.eFirstBad f) s = .next t ∧
      EndsWith t n ⟨.failed, .invalidFirstCode, false, []⟩ := by
  refine ⟨_, classify_encode (i := .eFirstBad f) ⟨hs, hn, hlo, hhi⟩ rfl,
    execEFirstBad_eq_next.2 ⟨⟨⟨hs, hn⟩, hlo, hhi⟩, rfl⟩, ?_⟩
  have hend := EndsWith.of_ended (s := (s.take f).raise .invalidFirstCode) rfl n
  rw [observation_raise htrunc, hout] at hend
  exact hend

/-- A literal first code starts the loop, which ends with what the codes after it decode to (R151). -/
theorem Tracks.literal_endsWith (h : Tracks s literalTable rest) (hs : s.state = .start)
    (hn : s.nfi = Config.firstFree) (hout : s.output = []) (hc : c.toNat < 256) :
    ∃ j t, s.classify (zext13 c) = .ok j ∧ exec j s = .next t ∧
      EndsWith t (rest.length + 1) (decodeCodes (c :: rest)) := by
  have hlit : zext13 c = (BitVec.ofNat 8 c.toNat).setWidth 13 :=
    zext13_eq_iff.2 (by rw [BitVec.toNat_setWidth, BitVec.toNat_ofNat]; omega)
  obtain ⟨t, ht, hinv⟩ := h.live.eFirst_runs hs hn (BitVec.ofNat 8 c.toNat)
  refine ⟨_, t, hlit ▸ classify_literal hs hn _, ht, ?_⟩
  have hloop := emittingClass_decoding (i := .eFirst _) rfl ht
  cases (eFirst_eq hs hn h.live.dict.literals _).symm.trans ht
  have hend := (h.of_emittingClass (j := .eFirst _) rfl ht hinv ⟨h.tabled.cursor, h.tabled.slots⟩).endsWith hloop
  rw [decodeCodes_of_literal hc]
  simpa [hout, Nat.mod_eq_of_lt hc] using hend

/-- The first step of a session on a list of codes leads to its end (R180, R150 to R152). -/
theorem start_endsWith (hr : s.rst = false) (hs : s.state ≠ .decoding) (hstart : s.start = true)
    (hlen : s.inLen = (pack codes).length) (hin : s.input = Memory.ofBytes (pack codes)) :
    ∃ t, step s = .next t ∧ EndsWith t codes.length (decodeCodes codes) := by
  have h := hlen ▸ Tracks.beginSession (codes := codes) hr hin
  cases codes with
  | nil =>
    obtain ⟨hi, hu⟩ := h.left.fetch_end
    obtain ⟨t, hcl, ht, hend⟩ := firstBad_endsWith (s := (s.beginSession s.inLen).returning (.fetched Config.eos))
      (f := Config.eos) rfl rfl (show Config.firstFree ≤ Config.eos by decide) (BitVec.le_refl _) rfl rfl 0
    exact ⟨t, (step_start_eq_class hr hs hstart hi hu rfl hcl).trans ht, hend⟩
  | cons c rest =>
    obtain ⟨i, u, hi, hu, hf, hut, hstate, -, hout⟩ := h.fetch_code
    have hun : u.nfi = Config.firstFree :=
      BitVec.eq_of_toNat_eq (hut.tabled.cursor.trans length_literalTable)
    rcases Nat.lt_or_ge c.toNat 256 with hc | hc
    · obtain ⟨j, t, hcl, ht, hend⟩ := hut.literal_endsWith hstate hun hout hc
      exact ⟨t, (step_start_eq_class hr hs hstart hi hu hf hcl).trans ht, hend⟩
    · have hlo : u.nfi ≤ zext13 c := le_zext13_iff.2 (hun ▸ hc)
      obtain ⟨t, hcl, ht, hend⟩ :=
        firstBad_endsWith hstate hun hlo (zext13_le_eos c) hut.trunc hout (c :: rest).length
      rw [decodeCodes_of_no_literal hc]
      exact ⟨t, (step_start_eq_class hr hs hstart hi hu hf hcl).trans ht, hend⟩

end Sys2Proof

end

/-! ## The obligations on the engine and on its loop -/

section

namespace Sys2Proof.Proofs

open Machine

/-- Settles O50: the first step begins a session that tracks the table decoder, and `pack` is no shorter than the list. -/
theorem sessionDecodesItsCodes : Obligations.SessionDecodesItsCodes := by
  intro s codes hr hs hstart hlen hin
  obtain ⟨t, ht, k, u, hk, hrun, hend, ho, hbefore⟩ := start_endsWith hr hs hstart hlen hin
  have hpack := length_le_length_pack codes
  refine ⟨k + 1, u, Nat.le_add_left 1 k, by omega, (core_run_succ k ht).trans hrun, hend, ho,
    ho ▸ decodeCodes_trunc codes, fun j hj hjk => ?_⟩
  obtain ⟨m, rfl⟩ := Nat.exists_eq_add_of_le' hj
  obtain ⟨v, hv, hd⟩ := hbefore m (Nat.lt_of_succ_lt_succ hjk)
  exact ⟨v, (core_run_succ m ht).trans hv, hd⟩

/-- Settles O26: by the law of `E.FIRST`, its byte zero-extended. -/
theorem firstLiteralEmitted : Obligations.FirstLiteralEmitted := by
  intro s b hs hn hl
  rw [eFirst_eq hs hn hl, BitVec.ofNat_toNat 13]

/-- Settles O31: the code names the same entry before and after the append, and Commit runs on the candidate. -/
theorem knownCodeBuildsAndEmits : Obligations.KnownCodeBuildsAndEmits := by
  intro s c p rest b hs hlo hhi hc hp hprev h1 hl hcur
  have hget : (s.dictStore (p ++ [b])).dictGet c = some (b :: rest) := by
    rw [State.dictGet_dictStore hhi hc.le, if_neg hc.ne, hcur]
  obtain ⟨t, ht, hcom⟩ := commit_committed (entry := p ++ [b]) hlo hhi (by simpa using h1) (by simp; omega) hget
  refine ⟨t, execEKnown_eq_next.2 ⟨⟨hs, zext13_lt_iff.2 hc, zext13_lt_iff.2 hp⟩, p, b, rest, ?_, ?_, ht⟩,
    zext13_eq c ▸ hcom.frame, hcom.room, hcom.full⟩
  · rw [State.dictGet_eq hp, hprev]
  · rw [State.dictGet_eq hc, hcur]

/-- Settles O32: after the append the code names the candidate itself, and Commit runs on it. -/
theorem selfReferentialCodeExtendsPrevious : Obligations.SelfReferentialCodeExtendsPrevious := by
  intro s c rest b hs hlo hc hp hprev hl
  have hhi : s.nfi.toNat ≤ 4095 := by omega
  have hget : (s.dictStore (b :: rest ++ [b])).dictGet c = some (b :: rest ++ [b]) := by
    rw [State.dictGet_dictStore hhi hc.le, if_pos hc]
  obtain ⟨t, ht, hcom⟩ := commit_committed hlo hhi (by simp) (by simp; omega) hget
  refine ⟨t, execEKwkwk_eq_next.2 ⟨⟨hs, zext13_eq_iff.2 hc, zext13_lt_iff.2 hp⟩, b, rest, ?_, ht⟩,
    zext13_eq c ▸ hcom.frame, hc ▸ hcom.room, hcom.full⟩
  rw [State.dictGet_eq hp, hprev]

/-- Settles O34: the frame of the ending classes; `E.EOS` raises nothing. -/
theorem endingClassesFrame : Obligations.EndingClassesFrame := by
  intro s t i hi h
  have hframe := endingClass_frame hi h
  refine ⟨hframe, ?_, fun a => by rw [hframe]⟩
  rintro rfl
  obtain ⟨-, rfl⟩ := execEEos_eq_next.1 h
  rfl

/-- Settles O35: the frame of the emitting classes, the output that only grows, and the slots by `emittingClass_slots`. -/
theorem emittingClassesFrame : Obligations.EmittingClassesFrame := by
  intro s t i hi h
  have hframe := emittingClass_frame hi h
  refine ⟨hframe, fun a ha => ?_, fun a => by rw [hframe], ?_, fun k hk => emittingClass_slots hi h hk⟩
  · obtain ⟨emitted, hout⟩ := emittingClass_output_prefix hi h
    rw [← hout, List.getElem?_append_left ha]
  · rintro b rfl
    obtain ⟨-, bytes, -, rfl⟩ := execEFirst_eq_next.1 h
    exact ⟨rfl, rfl⟩

/-- Settles O40: the fetch keeps `state`, `nfi` and `prev`, and the classification is the chain of tests. -/
theorem loopTestsInOrder : Obligations.LoopTestsInOrder := by
  intro s u i f hr hs hi hu hf hle
  have hframe := fetchForm_frame (State.fetch_selected hi).2 hu
  have hus : u.state = .decoding := by rw [hframe]; exact hs
  have hnfi : u.nfi = s.nfi := by rw [hframe]
  have hprev : u.prev = s.prev := by rw [hframe]
  rw [step_eq_class hr hs hi hu hf (State.classify_decoding hus hle), hnfi, hprev]
  simp only [BitVec.toNat_eq, BitVec.lt_def, BitVec.le_def, zext13_toNat, low12_eq]
  rfl

/-- Settles O48: the supplied input gives a form to fetch, and handling its code ends or consumes. -/
theorem decodingStepEndsOrConsumes : Obligations.DecodingStepEndsOrConsumes := by
  intro s hinv hr hs hin
  obtain ⟨i, hi⟩ := State.fetch_of_supplied fun a _ ha => hin a ha
  obtain ⟨t, ht, -⟩ := (hinv.liveInv hs).code_runs hi
  obtain ⟨u, f, j, hu, hf, hj, hjt⟩ := runCode_eq_next (State.fetch_selected hi).2 ht
  exact ⟨t, (step_eq_class hr hs hi hu hf hj).trans hjt,
    code_ends_or_consumes (State.fetch_selected hi).2 hu hf hj hjt⟩

/-- Settles O27: the value is from `nfi` to the sentinel, so the class runs. -/
theorem firstBadRaisesInvalidFirstCode : Obligations.FirstBadRaisesInvalidFirstCode := by
  intro s f hs hn hlo hhi
  have hge : s.nfi ≤ f := by rw [hn]; exact hlo
  exact execEFirstBad_eq_next.2 ⟨⟨⟨hs, hn⟩, hge, hhi⟩, rfl⟩

/-- Settles O28: in the loop `E.EOS` runs, a teardown before the phase changes. -/
theorem endOfStreamFinishesSession : Obligations.EndOfStreamFinishesSession :=
  fun _ hs => execEEos_eq_next.2 ⟨hs, rfl⟩

/-- Settles O29: the code is above `nfi`, so the class runs. -/
theorem badCodeRaisesInvalidCode : Obligations.BadCodeRaisesInvalidCode :=
  fun _ _ hs hc => execEBad_eq_next.2 ⟨⟨hs, lt_zext13_iff.2 hc⟩, by rw [← zext13_eq]; rfl⟩

/-- Settles O30: the code is at most `nfi` and `prev` at least, so the class runs. -/
theorem stalePreviousRaisesItsKind : Obligations.StalePreviousRaisesItsKind :=
  fun _ _ hs hc hp => execEStale_eq_next.2 ⟨⟨hs, zext13_le_iff.2 hc, le_zext13_iff.2 hp⟩, by rw [← zext13_eq]; rfl⟩

/-- Settles O38: by `step_eq_class`. -/
theorem stepRunsDecodedRows : Obligations.StepRunsDecodedRows :=
  fun _ _ _ _ _ hr hs hi hu hf hj => step_eq_class hr hs hi hu hf hj

/-- Settles O43: an idle core has nothing to run, and where a byte of the form is missing the fetch gives no form. -/
theorem waitsChangeNothing : Obligations.WaitsChangeNothing := by
  refine ⟨fun s hr hs hstart => ?_, fun s hr hs ⟨j, hj, hmissing⟩ => ?_⟩
  · simp [step, nextStep, hr, hs, hstart]
  · obtain ⟨r, hfetch⟩ := State.fetch_of_missing hj hmissing
    rw [step_decoding hr hs, stepDecoding, hfetch]

end Sys2Proof.Proofs

end

/-! ## One code handled, from fetch to class

What the step of a running session and a start command have in common (R165, R180): a form is fetched and run, then the class of
the value it returned. -/

section

namespace Sys2Proof

open Machine

/-- One code handled from `s`: its form leaves `u`, the class of the value it returned leads to `t` (R165). -/
inductive CodeHandled (s u t : State) : Prop
  | intro {i j : Instr} {f : Fetched} (form : s.fetch = .ok i) (fetched : exec i s = .next u) (ret : u.ret = .fetched f)
      (cls : u.classify f = .ok j) (run : exec j u = .next t)

variable {s u t : State} {i : Instr}

theorem Machine.State.decoding_of_not_ended (he : s.ended = false) (hs : s.state ≠ .start) : s.state = .decoding := by
  unfold State.ended State.done State.fail at he
  cases hp : s.state with
  | start => exact absurd hp hs
  | decoding => rfl
  | finished => simp [hp] at he
  | failed => simp [hp] at he

theorem Machine.State.not_ended_of_decoding (hs : s.state = .decoding) : s.ended = false := by
  simp [State.ended, State.done, State.fail, hs]

/-- Where the first form has run, `S.START` is the class of its value (R180). -/
theorem execSStart_eq_class {j : Instr} {f : Fetched} {n : Nat} (hs : s.state ≠ .decoding)
    (hi : (s.beginSession n).fetch = .ok i) (hu : exec i (s.beginSession n) = .next u)
    (hf : u.ret = .fetched f) (hj : u.classify f = .ok j) :
    exec (.sStart n) s = exec j u := by
  have hstart : exec (.sStart n) s = runCode i (s.beginSession n) := by
    show execSStart n s = _
    rw [execSStart, if_neg hs, hi]
  exact hstart.trans (runCode_eq hi hu hf hj)

namespace CodeHandled

theorem of_fetched (hi : s.fetch = .ok i) (hu : runFetched i s = .next u) (ht : handleFetched u = .next t) :
    CodeHandled s u t := by
  have hform := (State.fetch_selected hi).2
  obtain ⟨v, f, j, hv, hf, hj, hjt⟩ := runCode_eq_next (s := s) (t := t) hform (by rw [runCode, hu, andThen_next, ht])
  cases (hu.symm.trans (runFetched_eq_exec hform s)).trans hv
  exact ⟨hi, hv, hf, hj, hjt⟩

theorem fetch_then_class (h : CodeHandled s u t) :
    ∃ i, s.fetch = .ok i ∧ runFetched i s = .next u ∧ handleFetched u = .next t := by
  obtain ⟨hi, hu, hf, hj, ht⟩ := h
  exact ⟨_, hi, (runFetched_eq_exec (State.fetch_selected hi).2 s).trans hu, (handleFetched_eq hf hj).trans ht⟩

theorem of_runCode (hi : s.fetch = .ok i) (h : runCode i s = .next t) : ∃ u, CodeHandled s u t := by
  obtain ⟨u, hu, ht⟩ := andThen_eq_next h
  exact ⟨u, of_fetched hi hu ht⟩

theorem runs (h : CodeHandled s u t) : ∃ i, s.fetch = .ok i ∧ runCode i s = .next t := by
  obtain ⟨i, hi, hu, ht⟩ := h.fetch_then_class
  exact ⟨i, hi, by rw [runCode, hu, andThen_next, ht]⟩

theorem ends_or_consumes (h : CodeHandled s u t) :
    t.ended = true ∨ (t.state = .decoding ∧ s.pos < t.pos ∧ t.len = s.len) := by
  obtain ⟨hi, hu, hf, hj, ht⟩ := h
  exact code_ends_or_consumes (State.fetch_selected hi).2 hu hf hj ht

theorem output_prefix (h : CodeHandled s u t) : s.output <+: t.output := by
  obtain ⟨hi, hu, hf, hj, ht⟩ := h
  exact code_output_prefix (State.fetch_selected hi).2 hu hj ht

theorem hostPart (h : CodeHandled s u t) : t.hostPart = s.hostPart := by
  obtain ⟨hi, hu, hf, hj, ht⟩ := h
  exact (exec_hostPart ht).trans (exec_hostPart hu)

theorem input (h : CodeHandled s u t) : t.input = s.input := congrArg Prod.fst h.hostPart

theorem rst (h : CodeHandled s u t) : t.rst = s.rst := congrArg (fun p => p.2.1) h.hostPart

/-- A fetch leaves `state`. -/
theorem fetched_ended (h : CodeHandled s u t) : u.ended = s.ended := by
  obtain ⟨hi, hu, hf, hj, ht⟩ := h
  exact State.ended_congr (by rw [fetchForm_frame (State.fetch_selected hi).2 hu])

/-- The classes that end the session emit nothing (R154, R218). -/
theorem not_ended_of_emission (h : CodeHandled s u t) (hne : t.output ≠ s.output) : t.ended = false := by
  obtain ⟨hi, hu, hf, hj, ht⟩ := h
  rcases State.classify_isClass hj with hk | hk
  · exact absurd ((endingClass_output hk ht).trans (fetchForm_output (State.fetch_selected hi).2 hu)) hne
  · exact State.not_ended_of_decoding (emittingClass_decoding hk ht)

theorem state_ne_start (h : CodeHandled s u t) : t.state ≠ .start := by
  intro hs
  rcases h.ends_or_consumes with he | ⟨hd, -⟩
  · simp [State.ended, State.done, State.fail, hs] at he
  · rw [hs] at hd; cases hd

/-- A handled code is progress: the session ends or `pos` moves (R164). -/
theorem ne (h : CodeHandled s u t) (hs : s.ended = false) : t ≠ s := by
  rintro rfl
  rcases h.ends_or_consumes with he | ⟨-, hpos, -⟩
  · rw [hs] at he; cases he
  · exact absurd hpos (Nat.lt_irrefl _)

theorem decoding_step (h : CodeHandled s u t) (hr : s.rst = false) (hs : s.state = .decoding) : step s = .next t := by
  obtain ⟨hi, hu, hf, hj, ht⟩ := h
  exact (step_eq_class hr hs hi hu hf hj).trans ht

/-- `S.START` handles the first code of the fresh session (R180). -/
theorem sStart {n : Nat} (h : CodeHandled (s.beginSession n) u t) (hs : s.state ≠ .decoding) :
    exec (.sStart n) s = .next t := by
  obtain ⟨hi, hu, hf, hj, ht⟩ := h
  exact (execSStart_eq_class hs hi hu hf hj).trans ht

theorem start_step (h : CodeHandled (s.beginSession s.inLen) u t) (hr : s.rst = false) (hs : s.state ≠ .decoding)
    (hstart : s.start = true) : step s = .next t := by
  obtain ⟨hi, hu, hf, hj, ht⟩ := h
  exact (step_start_eq_class hr hs hstart hi hu hf hj).trans ht

end CodeHandled

/-- In a live session a fetched code is handled to its end and leaves the invariant (R165, R40). -/
theorem LiveInv.codeHandled (h : LiveInv s) (hi : s.fetch = .ok i) : ∃ u t, CodeHandled s u t ∧ StateInv t := by
  obtain ⟨t, ht, hinv⟩ := h.code_runs hi
  obtain ⟨u, hu⟩ := CodeHandled.of_runCode hi ht
  exact ⟨u, t, hu, hinv⟩

theorem CodeHandled.stateInv (h : CodeHandled s u t) (hs : LiveInv s) : StateInv t := by
  obtain ⟨i, hi, hrun⟩ := h.runs
  obtain ⟨t', ht, hinv⟩ := hs.code_runs hi
  cases hrun.symm.trans ht
  exact hinv

/-! ### A session with its input supplied -/

/-- A code of a live session with its input supplied is handled (R164, R190 H1). -/
theorem LiveInv.codeHandled_of_supplied (h : LiveInv s) (hin : Supplied s.input s.len) :
    ∃ u t, CodeHandled s u t ∧ StateInv t := by
  obtain ⟨i, hi⟩ := State.fetch_of_supplied fun a _ ha => hin a ha
  exact h.codeHandled hi

/-- In the loop each step ends the session or consumes a byte, so at most one step more than the bytes left is taken (R182). -/
theorem StateInv.ends_within (h : StateInv s) (hr : s.rst = false) (hs : s.state = .decoding)
    (hin : Supplied s.input s.len) :
    ∃ k ≤ s.len - s.pos + 1, ∃ u, core.run k s = .next u ∧ u.ended = true := by
  induction hn : s.len - s.pos using Nat.strong_induction_on generalizing s with
  | h n ih =>
    obtain ⟨u, t, hcode, hinv⟩ := (h.liveInv hs).codeHandled_of_supplied hin
    have hstep := hcode.decoding_step hr hs
    rcases hcode.ends_or_consumes with hend | ⟨hd, hpos, hlen⟩
    · exact ⟨1, Nat.le_add_left 1 n, t, core_run_succ 0 hstep, hend⟩
    · have hle := hinv.posLe
      obtain ⟨k, hk, v, hrun, hend⟩ := ih (t.len - t.pos) (by omega) hinv (hcode.rst.trans hr) hd
        (by rw [hcode.input, hlen]; exact hin) rfl
      exact ⟨k + 1, by omega, v, (core_run_succ k hstep).trans hrun, hend⟩

end Sys2Proof

end

/-! ## The first code of a session

`S.START` on an input of no byte, of one byte, and of two or more, with the first value a literal or not (R150 to R152, R180). -/

section

namespace Sys2Proof

open Machine

variable {s u : State} {i : Instr} {f : Fetched} {n : Nat}

/-- The first fetch leaves the engine's registers and the dictionary of the fresh session (R110). -/
theorem fetched_of_beginSession (hi : (s.beginSession n).fetch = .ok i) (hu : exec i (s.beginSession n) = .next u) :
    u.state = .start ∧ u.nfi = Config.firstFree ∧ u.output = [] ∧ LiteralsHeld u := by
  have hframe := fetchForm_frame (State.fetch_selected hi).2 hu
  have hdict : u.dict = Dict.literals := by rw [hframe]; rfl
  refine ⟨by rw [hframe]; rfl, by rw [hframe]; rfl, by rw [hframe]; rfl, fun _ k hk => ?_⟩
  rw [hdict, Dict.read_literals, if_pos hk]

/-- A first value from 256 up fails (R152). -/
theorem execSStart_of_bad (hs : s.state ≠ .decoding) (hi : (s.beginSession n).fetch = .ok i)
    (hu : exec i (s.beginSession n) = .next u) (hf : u.ret = .fetched f) (hlo : 256 ≤ f.toNat)
    (hhi : f.toNat ≤ 4096) : exec (.sStart n) s = .next ((u.take f).raise .invalidFirstCode) := by
  obtain ⟨hus, hun, -⟩ := fetched_of_beginSession hi hu
  have hle : u.nfi ≤ f := by rw [hun]; exact hlo
  have hcls : u.classify f = .ok (.eFirstBad f) := classify_encode (i := .eFirstBad f) ⟨hus, hun, hle, hhi⟩ rfl
  exact (execSStart_eq_class hs hi hu hf hcls).trans (execEFirstBad_eq_next.2 ⟨⟨⟨hus, hun⟩, hle, hhi⟩, rfl⟩)

/-- A first value below 256 is emitted and starts the loop (R151). -/
theorem execSStart_of_literal (hs : s.state ≠ .decoding) (hi : (s.beginSession n).fetch = .ok i)
    (hu : exec i (s.beginSession n) = .next u) (hf : u.ret = .fetched f) (hlit : f.toNat < 256) :
    exec (.sStart n) s = .next { u with
      cur := f, prev := BitVec.ofNat 12 f.toNat, output := [BitVec.ofNat 8 f.toNat], state := .decoding } := by
  obtain ⟨hus, hun, hout, hheld⟩ := fetched_of_beginSession hi hu
  obtain ⟨b, rfl⟩ : ∃ b : Byte, f = b.setWidth 13 :=
    ⟨BitVec.ofNat 8 f.toNat, BitVec.eq_of_toNat_eq (by rw [BitVec.toNat_setWidth, BitVec.toNat_ofNat]; omega)⟩
  have hb : (b.setWidth 13 : Fetched).toNat = b.toNat := by rw [BitVec.toNat_setWidth]; omega
  rw [execSStart_eq_class hs hi hu hf (classify_literal hus hun b), eFirst_eq hus hun hheld, hb, hout,
    BitVec.ofNat_toNat 8, BitVec.setWidth_eq]
  rfl

/-- The first form of an input of two bytes or more returns code A, and keeps a nibble if a byte follows (R111, R113). -/
theorem beginSession_fetch_code (h2 : 2 ≤ n) {b0 b1 : Byte} (hb0 : Cells.read s.input 0 = some b0)
    (hb1 : Cells.read s.input 1 = some b1) :
    ∃ i, (s.beginSession n).fetch = .ok i ∧ exec i (s.beginSession n) = .next { s.beginSession n with
      pos := 2, loPend := decide (3 ≤ n), loNib := if 3 ≤ n then lowNibble b1 else 0#4
      ret := .fetched (zext13 (codeA b0 b1)) } := by
  by_cases h3 : 3 ≤ n
  · have hsel : FormSelected false n (.ncPair0 (codeA b0 b1) (lowNibble b1)) := ⟨rfl, h3⟩
    refine ⟨_, State.fetch_of_two_bytes hsel (by simp [encode]) hb0 hb1, execNcPair0_eq_next.2 ⟨hsel, ?_⟩⟩
    rw [decide_eq_true h3, if_pos h3]
    rfl
  · have hsel : FormSelected false n (.ncTail (codeA b0 b1) (lowNibble b1)) := ⟨rfl, by omega⟩
    refine ⟨_, State.fetch_of_two_bytes hsel (by simp [encode]) hb0 hb1,
      (execNcTail_eq_next (p := lowNibble b1)).2 ⟨hsel, ?_⟩⟩
    rw [decide_eq_false h3, if_neg h3]
    rfl

end Sys2Proof

end

/-! ## The obligations on the session -/

section

namespace Sys2Proof.Proofs

open Machine

/-- Settles O49: the first code ends the session or enters the loop, which ends within the bytes left. -/
theorem sessionEndsWithinBound : Obligations.SessionEndsWithinBound := by
  intro s h hr hs hstart hin
  obtain ⟨u, t, hcode, hinv⟩ := (liveInv_beginSession h.inputWf s.inLen).codeHandled_of_supplied hin
  refine ⟨t, hcode.start_step hr hs hstart, ?_⟩
  rcases hcode.ends_or_consumes with hend | ⟨hd, -, hlen⟩
  · exact ⟨0, Nat.zero_le _, t, core_run_zero t, hend⟩
  · have hlen : t.len = s.inLen := hlen
    obtain ⟨k, hk, hrun⟩ := hinv.ends_within (hcode.rst.trans hr) hd (by rw [hcode.input, hlen]; exact hin)
    exact ⟨k, by omega, hrun⟩

/-- Settles O36: no byte and one byte give the sentinel, two bytes a code, which is a literal or not. -/
theorem sessionStartHandlesFirstCode : Obligations.SessionStartHandlesFirstCode := by
  intro s len
  refine ⟨fun hs => if_pos hs, ?_, ?_, ?_⟩
  · rintro hs rfl
    exact execSStart_of_bad (f := Config.eos) hs (State.fetch_of_no_bytes (i := .ncEos0) ⟨rfl, rfl⟩ rfl)
      (execNcEos0_eq_next.2 ⟨⟨rfl, rfl⟩, rfl⟩) rfl (by decide) (by decide)
  · rintro x hs rfl hx
    exact execSStart_of_bad (f := Config.eos) hs (State.fetch_of_one_byte (i := .ncEos1 x) ⟨rfl, rfl⟩ rfl hx)
      ((execNcEos1_eq_next (x := x)).2 ⟨⟨rfl, rfl⟩, rfl⟩) rfl (by decide) (by decide)
  · intro b0 b1 hs h2 hb0 hb1
    obtain ⟨i, hi, hu⟩ := beginSession_fetch_code h2 hb0 hb1
    have hc := zext13_toNat (codeA b0 b1)
    rw [← codeA_toNat, ← zext13_eq, ← lowNibble_eq]
    split
    · next hlit =>
      rw [execSStart_of_literal hs hi hu rfl (hc ▸ hlit), hc]
      rfl
    · next hbad =>
      rw [execSStart_of_bad hs hi hu rfl (by omega) (zext13_le_eos _)]
      rfl

/-- Settles O39: the guards of the step and of `S.START` hold, and the rest is the first form and its class. -/
theorem startStepRunsFirstRows : Obligations.StartStepRunsFirstRows := by
  intro s u i j f hr hs hstart hi hu hf hj
  have hclass := step_start_eq_class hr hs hstart hi hu hf hj
  exact ⟨hclass.trans (execSStart_eq_class hs hi hu hf hj).symm, hclass⟩

end Sys2Proof.Proofs

end

/-! ## A cycle on the ports against the code level

With nothing owed to the sink the registers are the code-level state (`PortInv.delivered`), so the form that a cycle completes is
the one the code level fetches, and the code it handles is the code level's next. -/

section

namespace Sys2Proof

open Machine

variable {q r : PortState} {p : PortIn} {s u t : State} {b : Byte} {rest : List Byte} {len n : Nat}

/-! ### The handshakes -/

theorem Machine.PortState.inReady_eq_true : q.inReady p = true ↔
    p.rst = false ∧ q.busy = true ∧ q.delay = 0 ∧ q.pending = [] ∧ q.taken.length < q.need := by
  simp [PortState.inReady, and_assoc]

theorem Machine.PortState.outValid_eq_true : q.outValid p = true ↔
    p.rst = false ∧ q.busy = true ∧ q.delay = 0 ∧ q.pending ≠ [] := by
  simp [PortState.outValid, and_assoc]

/-! ### The completion of a form -/

/-- With the bytes of the form taken, the fetch at `pos` decodes those (R186, R189 a). -/
theorem PortInv.fetch_eq (h : PortInv q) (hp : q.pending = []) (hn : q.need ≤ q.taken.length) :
    q.code.fetch = decodeFetch q.core.loPend q.core.rem q.taken := by
  obtain ⟨-, -, hcode⟩ := h.delivered hp
  rw [← hcode]
  exact State.fetch_of_bytes (le_antisymm h.takenLe hn) fun j hj => (h.takenIs j hj).symm

/-- A completion that does anything handles the code level's next code. -/
theorem PortInv.complete_cases (h : PortInv q) (hp : q.pending = []) (hn : q.need ≤ q.taken.length) (n : Nat) :
    q.complete n = q ∨ ∃ u t, CodeHandled q.code u t ∧ q.complete n = q.handled u t n := by
  obtain ⟨-, -, hcode⟩ := h.delivered hp
  rcases q.complete_cases n with he | ⟨i, u, t, hi, hu, ht, he⟩
  · exact .inl he
  · exact .inr ⟨u, t, .of_fetched ((h.fetch_eq hp hn).trans hi) (hcode ▸ hu) ht, he⟩

/-- Where the code level handles a code, the completion does. -/
theorem PortInv.complete_eq (h : PortInv q) (hp : q.pending = []) (hn : q.need ≤ q.taken.length)
    (hcode : CodeHandled q.code u t) (n : Nat) : q.complete n = q.handled u t n := by
  obtain ⟨-, -, hcore⟩ := h.delivered hp
  obtain ⟨i, hi, hu, ht⟩ := hcode.fetch_then_class
  exact PortState.complete_of n ((h.fetch_eq hp hn).symm.trans hi) (hcore ▸ hu) ht

/-! ### The refinement -/

/-- The code-level state after a cycle (R189): as before, reset, a fresh session, or the one after the next code, which is handled
in a session that has not ended and owes the sink nothing. -/
theorem PortInv.cycle_code (h : PortInv q) (p : PortIn) :
    (q.cycle p).code = q.code ∨
    (p.rst = true ∧ (q.cycle p).code = { q.code.hardReset with output := q.sent }) ∨
    (p.start = true ∧ q.busy = false ∧ (q.cycle p).code = q.code.beginSession p.inLen) ∨
    (q.pending = [] ∧ q.busy = true ∧ q.code.ended = false ∧ ∃ u, CodeHandled q.code u (q.cycle p).code) := by
  rcases q.cycle_cases p with ⟨hr, he⟩ | ⟨-, -, -, he⟩ | ⟨-, hb, hs, he⟩ | ⟨-, -, n, -, he⟩ | ⟨-, -, -, -, -, he⟩ |
    ⟨-, -, -, -, b, rest, -, he⟩ | ⟨-, -, -, -, -, -, he⟩ | ⟨-, -, -, -, -, -, he⟩ | ⟨-, hb, -, hp, hn, he⟩ <;>
    rw [he]
  · exact .inr (.inl ⟨hr, rfl⟩)
  · exact .inl rfl
  · exact .inr (.inr (.inl ⟨hs, hb, rfl⟩))
  · exact .inl rfl
  · exact .inl rfl
  · exact .inl (q.send_code b rest p.pace)
  · exact .inl rfl
  · exact .inl rfl
  · rcases h.complete_cases hp hn p.pace with he | ⟨u, t, hcode, he⟩ <;> rw [he]
    · exact .inl rfl
    · obtain ⟨-, -, hcore⟩ := h.delivered hp
      exact .inr (.inr (.inr ⟨hp, hb, hcore ▸ h.running hb, u, by rwa [PortState.handled_code]⟩))

/-! ### The port level's own invariant -/

theorem portInv_reset (q : PortState) : PortInv q.reset where
  outSplit := List.append_nil q.sent
  takenLe := Nat.zero_le _
  takenIs j hj := absurd hj (Nat.not_lt_zero j)
  idle _ := ⟨rfl, rfl, by simp [PortState.reset]⟩
  running hb := by cases hb
  settled _ := rfl
  landed t ht := by cases ht

theorem portInv_accept (q : PortState) (len n : Nat) : PortInv (q.accept len n) where
  outSplit := rfl
  takenLe := Nat.zero_le _
  takenIs j hj := absurd hj (Nat.not_lt_zero j)
  idle hb := by cases hb
  running _ := rfl
  settled _ := rfl
  landed t ht := by cases ht

theorem PortInv.work (h : PortInv q) (n : Nat) : PortInv { q with delay := n } :=
  ⟨h.outSplit, h.takenLe, h.takenIs, h.idle, h.running, h.settled, h.landed⟩

/-- Bytes are owed by a step in progress, which has taken none of the next form and does not end the session (R65 e). -/
theorem PortInv.in_progress (h : PortInv q) (hp : q.pending ≠ []) :
    q.landing = some q.code ∧ q.busy = true ∧ q.taken = [] ∧ handleFetched q.core = .next q.code ∧
      q.code.ended = false := by
  cases hl : q.landing with
  | none => exact absurd (h.settled hl) hp
  | some t =>
    obtain ⟨hb, htaken, -, hclass, hend⟩ := h.landed t hl
    rw [PortState.code_of_some hl]
    exact ⟨rfl, hb, htaken, hclass, hend⟩

/-- A transfer to the sink never ends the session: an emitting step does not. -/
theorem PortInv.send_busy (h : PortInv q) (hp : q.pending = b :: rest) (n : Nat) : (q.send b rest n).busy = true := by
  obtain ⟨-, hb, -, -, hend⟩ := h.in_progress (by simp [hp])
  cases rest with
  | nil =>
    obtain ⟨-, -, hbusy⟩ := q.send_last b n
    rw [hbusy, hend]; rfl
  | cons c rest =>
    obtain ⟨-, -, hbusy⟩ := q.send_more b c rest n
    rw [hbusy, hb]

/-- The transfer of a byte to the sink: the last one lands the step (R187, R65 e). -/
theorem PortInv.send (h : PortInv q) (hp : q.pending = b :: rest) (n : Nat) : PortInv (q.send b rest n) := by
  obtain ⟨hl, hb, htaken, hclass, hend⟩ := h.in_progress (by simp [hp])
  have hsplit : q.sent ++ [b] ++ rest = q.code.output := by
    rw [List.append_assoc, List.singleton_append, ← hp, h.outSplit]
  have hbusy := h.send_busy hp n
  cases rest with
  | nil => exact
    { outSplit := hsplit
      takenLe := by simp [htaken]
      takenIs := by simp [htaken]
      idle := fun hi => by rw [hbusy] at hi; cases hi
      running := fun _ => hend
      settled := fun _ => rfl
      landed := fun t ht => by cases ht }
  | cons c rest => exact
    { outSplit := hsplit
      takenLe := h.takenLe
      takenIs := h.takenIs
      idle := fun hi => by rw [hbusy] at hi; cases hi
      running := fun _ => h.running hb
      settled := fun hnone => by cases hl.symm.trans hnone
      landed := fun t ht => by
        cases hl.symm.trans ht
        exact ⟨hb, htaken, List.cons_ne_nil c rest, hclass, hend⟩ }

/-- The transfer of an input byte: it is the next one of `IN`, and within the form (R186). -/
theorem PortInv.take (h : PortInv q) (hb : q.busy = true) (hp : q.pending = []) (hn : q.taken.length < q.need)
    (hin : Cells.read q.core.input (q.core.pos + q.taken.length) = some b) (n : Nat) : PortInv (q.take b n) where
  outSplit := h.outSplit
  takenLe := by
    show (q.taken ++ [b]).length ≤ q.need
    simpa using hn
  takenIs j hj := by
    show (q.taken ++ [b])[j]? = Cells.read q.core.input (q.core.pos + j)
    have hle : j < q.taken.length + 1 := by simpa [PortState.take] using hj
    rcases Nat.lt_succ_iff_lt_or_eq.1 hle with hlt | rfl
    · rw [List.getElem?_append_left hlt, h.takenIs j hlt]
    · rw [List.getElem?_concat_length, hin]
  idle hi := by cases hb.symm.trans hi
  running := h.running
  settled := h.settled
  landed t ht := by
    obtain ⟨-, -, hne, -⟩ := h.landed t ht
    exact absurd hp hne

/-- A code handled: without an emission the step ends at once, with one it stays in progress (R65 e, R189 d). -/
theorem PortInv.handled (h : PortInv q) (hb : q.busy = true) (hp : q.pending = []) (hcode : CodeHandled q.code u t)
    (n : Nat) : PortInv (q.handled u t n) := by
  obtain ⟨hsent, -, hcore⟩ := h.delivered hp
  obtain ⟨-, -, -, hclass⟩ := hcode.fetch_then_class
  obtain ⟨bytes, hbytes⟩ := hcode.output_prefix
  have hdrop : t.output.drop q.core.output.length = bytes := by rw [hcore, ← hbytes, List.drop_left]
  rcases q.handled_cases u t n with ⟨hnone, he⟩ | ⟨b, rest, hsome, he⟩ <;> rw [he]
  · rw [hdrop] at hnone
    rw [hnone, List.append_nil] at hbytes
    exact
      { outSplit := by
          show q.sent ++ q.pending = t.output
          rw [hp, List.append_nil, hsent, hbytes]
        takenLe := Nat.zero_le _
        takenIs := fun j hj => absurd hj (Nat.not_lt_zero j)
        idle := fun hi => ⟨rfl, hp, fun hs => by simp [State.not_ended_of_decoding hs] at hi⟩
        running := fun hi => by simpa using hi
        settled := fun _ => hp
        landed := fun t ht => by cases ht }
  · rw [hdrop] at hsome
    have hne : t.output ≠ q.code.output := by
      rw [← hbytes, hsome]; simp
    exact
      { outSplit := by
          show q.sent ++ b :: rest = t.output
          rw [hsent, ← hsome, hbytes]
        takenLe := Nat.zero_le _
        takenIs := fun j hj => absurd hj (Nat.not_lt_zero j)
        idle := fun hi => by cases hb.symm.trans hi
        running := fun _ => by
          show u.ended = false
          rw [hcode.fetched_ended, ← hcore, h.running hb]
        settled := fun hi => by cases hi
        landed := fun t' ht => by
          cases ht
          exact ⟨hb, rfl, List.cons_ne_nil b rest, hclass, hcode.not_ended_of_emission hne⟩ }

/-- Every cycle keeps the port level's invariant (R185 to R189). -/
theorem PortInv.cycle (h : PortInv q) (hin : HonestCycle p q) : PortInv (q.cycle p) := by
  rcases q.cycle_cases p with ⟨-, he⟩ | ⟨-, -, -, he⟩ | ⟨-, -, -, he⟩ | ⟨-, -, n, -, he⟩ | ⟨-, -, -, -, -, he⟩ |
    ⟨-, -, -, -, b, rest, hp, he⟩ | ⟨-, -, -, -, -, -, he⟩ | ⟨hr, hb, hd, hp, hn, hv, he⟩ | ⟨-, hb, -, hp, hn, he⟩ <;>
    rw [he]
  · exact portInv_reset q
  · exact h
  · exact portInv_accept q p.inLen p.pace
  · exact h.work n
  · exact h
  · exact h.send hp p.pace
  · exact h
  · exact h.take hb hp hn (hin (PortState.inReady_eq_true.2 ⟨hr, hb, hd, hp, hn⟩) hv) p.pace
  · rcases h.complete_cases hp hn p.pace with he | ⟨u, t, hcode, he⟩ <;> rw [he]
    · exact h
    · exact h.handled hb hp hcode p.pace

/-! ### The machine's invariant behind the ports -/

/-- A cycle that leaves the code-level state and `busy` leaves what holds of them. -/
theorem PortLive.of_same (h : PortLive q) (hc : r.code = q.code) (hb : r.busy = q.busy) : PortLive r where
  machine := by rw [hb, hc]; exact h.machine
  fresh := by rw [hb, hc]; exact h.fresh
  inputWf := by rw [hc]; exact h.inputWf

theorem PortLive.reset (h : PortLive q) : PortLive q.reset where
  machine _ := stateInv_hardReset (s := { q.code with output := q.sent }) h.inputWf
  fresh hb := by cases hb
  inputWf := h.inputWf

theorem PortLive.accept (h : PortLive q) (len n : Nat) : PortLive (q.accept len n) where
  machine hm := by
    rcases hm with hb | hs
    · cases hb
    · exact absurd rfl hs
  fresh _ _ := rfl
  inputWf := h.inputWf

/-- In a session that has not ended the code-level state is live: a fresh session, or in the loop. -/
theorem PortLive.liveInv (h : PortLive q) (hb : q.busy = true) (hend : q.code.ended = false) : LiveInv q.code := by
  by_cases hs : q.code.state = .start
  · rw [h.fresh hb hs]
    exact liveInv_beginSession h.inputWf _
  · exact (h.machine (.inr hs)).liveInv (State.decoding_of_not_ended hend hs)

theorem PortLive.of_codeHandled (h : PortLive q) (hb : q.busy = true) (hend : q.code.ended = false)
    (hcode : CodeHandled q.code u r.code) : PortLive r where
  machine _ := hcode.stateInv (h.liveInv hb hend)
  fresh _ hs := absurd hs hcode.state_ne_start
  inputWf := by rw [hcode.input]; exact h.inputWf

/-- Every cycle keeps what holds of the code-level state behind the ports (R40, R189). -/
theorem PortLive.cycle (h : PortLive q) (hi : PortInv q) (p : PortIn) : PortLive (q.cycle p) := by
  rcases q.cycle_cases p with ⟨-, he⟩ | ⟨-, -, -, he⟩ | ⟨-, -, -, he⟩ | ⟨-, -, n, -, he⟩ | ⟨-, -, -, -, -, he⟩ |
    ⟨-, hb, -, -, b, rest, hp, he⟩ | ⟨-, -, -, -, -, -, he⟩ | ⟨-, -, -, -, -, -, he⟩ | ⟨-, hb, -, hp, hn, he⟩ <;>
    rw [he]
  · exact h.reset
  · exact h
  · exact h.accept p.inLen p.pace
  · exact h.of_same rfl rfl
  · exact h
  · exact h.of_same (q.send_code b rest p.pace) ((hi.send_busy hp p.pace).trans hb.symm)
  · exact h
  · exact h.of_same rfl rfl
  · rcases hi.complete_cases hp hn p.pace with he | ⟨u, t, hcode, he⟩ <;> rw [he]
    · exact h
    · obtain ⟨-, -, hcore⟩ := hi.delivered hp
      exact h.of_codeHandled hb (hcore ▸ hi.running hb) (by rwa [PortState.handled_code])

/-! ### Waiting -/

/-- In a live session the completion of a form is progress: the code-level state changes (R164, R193). -/
theorem PortLive.complete_ne (h : PortLive q) (hi : PortInv q) (hb : q.busy = true) (hp : q.pending = [])
    (hn : q.need ≤ q.taken.length) (n : Nat) : q.complete n ≠ q := by
  obtain ⟨-, -, hcore⟩ := hi.delivered hp
  have hend : q.code.ended = false := hcore ▸ hi.running hb
  obtain ⟨i, hdec⟩ := (Proofs.formChosenByPendingAndRemaining _ _ _).1 hn
  obtain ⟨u, t, hcode, -⟩ := (h.liveInv hb hend).codeHandled ((hi.fetch_eq hp hn).trans hdec)
  intro he
  rw [hi.complete_eq hp hn hcode] at he
  exact hcode.ne hend ((q.handled_code u t n).symm.trans (congrArg PortState.code he))

/-- A cycle without reset changes nothing exactly in the three waits W1, W2 and W3 (R193). -/
theorem PortLive.cycle_eq_self_iff (h : PortLive q) (hi : PortInv q) (hr : p.rst = false) : q.cycle p = q ↔
    (q.busy = false ∧ p.start = false) ∨
    (q.inReady p = true ∧ p.inValid = false) ∨
    (q.outValid p = true ∧ p.outReady = false) := by
  rw [PortState.inReady_eq_true, PortState.outValid_eq_true]
  rcases q.cycle_cases p with ⟨hr', he⟩ | ⟨-, hb, hs, he⟩ | ⟨-, hb, hs, he⟩ | ⟨-, hb, n, hd, he⟩ |
    ⟨-, hb, hd, hp, ho, he⟩ | ⟨-, hb, hd, ho, b, rest, hp, he⟩ | ⟨-, hb, hd, hp, hn, hv, he⟩ |
    ⟨-, hb, hd, hp, hn, hv, he⟩ | ⟨-, hb, hd, hp, hn, he⟩ <;> rw [he]
  · cases hr.symm.trans hr'
  · exact iff_of_true rfl (.inl ⟨hb, hs⟩)
  · refine iff_of_false (fun heq => ?_) (by simp [hb, hs])
    cases hb.symm.trans (congrArg PortState.busy heq.symm)
  · refine iff_of_false (fun heq => ?_) (by simp [hb, hd])
    have hdelay : n = q.delay := congrArg PortState.delay heq
    omega
  · exact iff_of_true rfl (.inr (.inr ⟨⟨hr, hb, hd, hp⟩, ho⟩))
  · refine iff_of_false (fun heq => ?_) (by simp [hb, hp, ho])
    have hpending := congrArg PortState.pending heq
    rw [PortState.send_pending, hp] at hpending
    exact List.cons_ne_self b rest hpending.symm
  · exact iff_of_true rfl (.inr (.inl ⟨⟨hr, hb, hd, hp, hn⟩, hv⟩))
  · refine iff_of_false (fun heq => ?_) (by simp [hb, hp, hv])
    have htaken : q.taken ++ [p.inData] = q.taken := congrArg PortState.taken heq
    simp at htaken
  · exact iff_of_false (h.complete_ne hi hb hp hn p.pace) (by simp [hb, hp, Nat.not_lt.2 hn])

/-! ### The handshakes over a cycle -/

/-- The core asks for a byte only within the input (R186). -/
theorem Machine.PortState.pos_lt_len_of_need (hn : q.taken.length < q.need) :
    q.core.pos + q.taken.length < q.core.len := by
  have hrem := formBytes_le_rem q.core.loPend q.core.rem
  unfold PortState.need at hn
  unfold State.rem at hn hrem
  omega

theorem Machine.PortState.cycle_of_not_accepted (hv : q.outValid p = true) (ho : p.outReady = false) :
    q.cycle p = q := by
  obtain ⟨hr, hb, hd, hp⟩ := PortState.outValid_eq_true.1 hv
  obtain ⟨b, rest, hp⟩ := List.exists_cons_of_ne_nil hp
  simp [PortState.cycle, hr, hb, hd, hp, ho]

theorem Machine.PortState.cycle_of_accepted (hv : q.outValid p = true) (hp : q.pending = b :: rest)
    (ho : p.outReady = true) : q.cycle p = q.send b rest p.pace := by
  obtain ⟨hr, hb, hd, -⟩ := PortState.outValid_eq_true.1 hv
  simp [PortState.cycle, hr, hb, hd, hp, ho]

/-! ### A session of the ports along the run of the code level -/

/-- The code-level state is that of the fresh session which `S.START` begins from `s`, or it stands on the run after it (R189). -/
structure OnCodeRun (s : State) (len : Nat) (t : State) : Prop where
  rst : t.rst = false
  reached : t = s.beginSession len ∨
    t.state ≠ .start ∧ ∃ k u, exec (.sStart len) s = .next u ∧ core.run k u = .next t

/-- The next code handled is the first one of `S.START`, or the next step of the run. -/
theorem OnCodeRun.next {v : State} (h : OnCodeRun s len t) (hs : s.state ≠ .decoding) (hend : t.ended = false)
    (hcode : CodeHandled t u v) : OnCodeRun s len v where
  rst := hcode.rst.trans h.rst
  reached := by
    refine .inr ⟨hcode.state_ne_start, ?_⟩
    rcases h.reached with rfl | ⟨ht, k, w, hw, hrun⟩
    · exact ⟨0, v, hcode.sStart hs, core_run_zero v⟩
    · have hstep := hcode.decoding_step h.rst (State.decoding_of_not_ended hend ht)
      exact ⟨k + 1, w, hw, core_run_step k hrun hstep⟩

/-- Without a reset or a start command a cycle stays on the run. -/
theorem OnCodeRun.cycle (h : OnCodeRun s len q.code) (hi : PortInv q) (hs : s.state ≠ .decoding)
    (hr : p.rst = false) (hstart : p.start = false) : OnCodeRun s len (q.cycle p).code := by
  rcases hi.cycle_code p with he | ⟨hr', -⟩ | ⟨hstart', -⟩ | ⟨-, -, hend, u, hcode⟩
  · rw [he]; exact h
  · cases hr.symm.trans hr'
  · cases hstart.symm.trans hstart'
  · exact h.next hs hend hcode

/-- Nor do any number of cycles leave it. -/
theorem OnCodeRun.cycles {ps : List PortIn} (h : OnCodeRun s len q.code) (hi : PortInv q) (hs : s.state ≠ .decoding)
    (hquiet : ∀ p ∈ ps, p.rst = false ∧ p.start = false)
    (hin : ∀ n p, ps[n]? = some p → HonestCycle p (q.cycles (ps.take n))) :
    OnCodeRun s len (q.cycles ps).code := by
  induction ps generalizing q with
  | nil => exact h
  | cons p ps ih =>
    obtain ⟨hr, hstart⟩ := hquiet p List.mem_cons_self
    exact ih (h.cycle hi hs hr hstart) (hi.cycle (hin 0 p rfl)) (fun p' hp' => hquiet p' (List.mem_cons_of_mem p hp'))
      fun n p' hp' => hin (n + 1) p' hp'

end Sys2Proof

end

/-! ## The obligations on the ports -/

section

namespace Sys2Proof.Proofs

open Machine

/-- Settles O55: the code handled in the last case of `PortInv.cycle_code` is a form fetched and run and its class run. -/
theorem portCycleRefinesCodeStep : Obligations.PortCycleRefinesCodeStep := by
  intro p q h
  rcases h.cycle_code p with he | hreset | hstart | ⟨hp, hb, -, u, hi, hu, hf, hj, ht⟩
  · exact .inl he
  · exact .inr (.inl hreset)
  · exact .inr (.inr (.inl hstart))
  · exact .inr (.inr (.inr ⟨hp, hb, _, u, _, _, hi, hu, hf, hj, ht⟩))

/-- Settles O56: both invariants, case by case of the cycle. -/
theorem portCycleKeepsInvariant : Obligations.PortCycleKeepsInvariant :=
  fun p _ h hin => ⟨h.cycle hin, fun hlive => hlive.cycle h p⟩

/-- Settles O57: the accepted session begins on the run, and no cycle leaves it. -/
theorem portSessionFollowsCodeRun : Obligations.PortSessionFollowsCodeRun := by
  intro q len pace ps h hb hr _ hquiet hin
  obtain ⟨-, hp, hs⟩ := h.idle hb
  obtain ⟨-, -, hcore⟩ := h.delivered hp
  have hrst : q.code.rst = false := hcore ▸ hr
  have hstart : OnCodeRun q.core len (q.accept len pace).code := ⟨hrst, .inl (by rw [q.accept_code, hcore])⟩
  rcases (hstart.cycles (portInv_accept q len pace) hs hquiet hin).reached with he | ⟨-, k, t, ht, hrun⟩
  · exact .inl he
  · exact .inr ⟨k, t, ht, hrun⟩

/-- Settles O59: the handshakes by their meaning, the waits by the cases of the cycle. -/
theorem portHandshakeRules : Obligations.PortHandshakeRules := by
  intro p q h
  refine ⟨fun hready => ?_, fun hr => ?_, fun hv ho => ?_, fun b rest hv hp ho => ?_,
    fun hlive hr => hlive.cycle_eq_self_iff h hr⟩
  · obtain ⟨-, hb, -, hp, hn⟩ := PortState.inReady_eq_true.1 hready
    exact ⟨hb, PortState.pos_lt_len_of_need hn, hp⟩
  · have hcycle : q.cycle p = q.reset := if_pos hr
    rw [hcycle]
    exact ⟨by simp [PortState.inReady, hr], by simp [PortState.outValid, hr], rfl, rfl⟩
  · rw [PortState.cycle_of_not_accepted hv ho]
    obtain ⟨-, hb, hd, hp⟩ := PortState.outValid_eq_true.1 hv
    exact ⟨rfl, fun p' hr' => PortState.outValid_eq_true.2 ⟨hr', hb, hd, hp⟩⟩
  · rw [PortState.cycle_of_accepted hv hp ho]
    exact ⟨q.send_sent b rest p.pace, q.send_pending b rest p.pace⟩

end Sys2Proof.Proofs

end

/-! ## The step that fails a session

Of the classes of the loop only `E.BAD` and `E.STALE` lead to Failed, and both test before they write (R217, R218). -/

section

namespace Sys2Proof

open Machine

variable {s t u : State} {j : Instr}

/-- A class run in the loop that leads to Failed is an ending class and records one of the loop's two kinds (R212, R213). -/
theorem loop_class_failed (hs : s.state = .decoding) (hj : IsEndingClass j = true ∨ IsEmittingClass j = true)
    (h : exec j s = .next t) (hfail : t.state = .failed) :
    IsEndingClass j = true ∧ (t.err = .invalidCode ∨ t.err = .stalePreviousCode) := by
  rcases hj with hk | hk
  · refine ⟨hk, ?_⟩
    cases j with
    | eFirstBad f =>
      obtain ⟨⟨⟨hstart, -⟩, -⟩, -⟩ := execEFirstBad_eq_next.1 h
      cases hstart.symm.trans hs
    | eEos => obtain ⟨-, rfl⟩ := execEEos_eq_next.1 h; cases hfail
    | eBad c => obtain ⟨-, rfl⟩ := execEBad_eq_next.1 h; exact .inl rfl
    | eStale c => obtain ⟨-, rfl⟩ := execEStale_eq_next.1 h; exact .inr rfl
    | _ => cases hk
  · cases (emittingClass_decoding hk h).symm.trans hfail

namespace CodeHandled

/-- The state a failing code leaves: what its fetch and its class wrote, the dictionary torn down, all else kept (R217). -/
theorem failed_frame (h : CodeHandled s u t) (hs : s.state = .decoding) (hfail : t.state = .failed) :
    t = { s with
        pos := t.pos, loPend := t.loPend, loNib := t.loNib, trunc := t.trunc, ret := t.ret
        cur := t.cur, dict := [], nfi := 0#13, err := t.err, state := t.state } ∧
      (t.err = .invalidCode ∨ t.err = .stalePreviousCode) := by
  obtain ⟨hi, hu, -, hj, ht⟩ := h
  have hfetch := fetchForm_frame (State.fetch_selected hi).2 hu
  have hus : u.state = .decoding := by rw [hfetch]; exact hs
  obtain ⟨hend, herr⟩ := loop_class_failed hus (State.classify_isClass hj) ht hfail
  refine ⟨?_, herr⟩
  rw [endingClass_frame hend ht, hfetch]

/-- A step in the loop is a reset, a wait, or one code handled (R240, R193, R165). -/
theorem of_decoding_step (hs : s.state = .decoding) (h : step s = .next t) :
    t = s.hardReset ∨ t = s ∨ ∃ u, CodeHandled s u t := by
  rcases step_cases s with ⟨-, he⟩ | ⟨-, -, he⟩ | ⟨-, hne, -⟩ | ⟨-, hne, -⟩
  · cases he.symm.trans h; exact .inl rfl
  · rcases stepDecoding_eq_next (he.symm.trans h) with hwait | ⟨i, u, f, j, hi, hu, hf, hj, ht⟩
    · exact .inr (.inl hwait)
    · exact .inr (.inr ⟨u, hi, hu, hf, hj, ht⟩)
  · exact absurd hs hne
  · exact absurd hs hne

end CodeHandled

end Sys2Proof

end

/-! ## The obligation on exceptions -/

section

namespace Sys2Proof.Proofs

open Machine

/-- Settles O52: a reset leads to Start and a wait stays in Decoding, so a code was handled, and its failing frame says the rest. -/
theorem failingStepIsPrecise : Obligations.FailingStepIsPrecise := by
  intro s t hs h hfail
  rcases CodeHandled.of_decoding_step hs h with rfl | rfl | ⟨u, hcode⟩
  · cases hfail
  · cases hs.symm.trans hfail
  · obtain ⟨hframe, herr⟩ := hcode.failed_frame hs hfail
    refine ⟨?_, ?_, ?_, ?_, ?_, ?_, herr⟩ <;> rw [hframe]

end Sys2Proof.Proofs

end

/-! ## The way to the end of a session on the ports

A cycle that changes anything in a busy core brings the end nearer: it ends the session or leaves less work. Under the host's duties
H2 and H3 (R190) no wait lasts, so the work runs out. -/

section

namespace Sys2Proof

open Machine

variable {q : PortState} {p : PortIn} {u t : State} {cycleAt : Nat → PortIn} {n : Nat}

/-- What is left to do, in this order of weight: input not consumed, bytes owed to the sink, bytes of the form not taken, cycles of
the implementation's own pace. -/
def Machine.PortState.workLeft (q : PortState) : ℕ ×ₗ ℕ ×ₗ ℕ ×ₗ ℕ :=
  toLex (q.code.len - q.code.pos, toLex (q.pending.length, toLex (q.need - q.taken.length, q.delay)))

/-- From `q` the ports came nearer to the end: `r` is idle with its session ended, or busy with less work left. -/
def Machine.PortState.Nearer (r q : PortState) : Prop :=
  (r.busy = false ∧ r.core.ended = true) ∨ (r.busy = true ∧ r.workLeft < q.workLeft)

theorem Machine.PortState.workLeft_lt_iff {r q : PortState} : r.workLeft < q.workLeft ↔
    r.code.len - r.code.pos < q.code.len - q.code.pos ∨
    (r.code.len - r.code.pos = q.code.len - q.code.pos ∧
      (r.pending.length < q.pending.length ∨
      (r.pending.length = q.pending.length ∧
        (r.need - r.taken.length < q.need - q.taken.length ∨
        (r.need - r.taken.length = q.need - q.taken.length ∧ r.delay < q.delay))))) := by
  simp only [PortState.workLeft, Prod.Lex.toLex_lt_toLex]

/-- A code handled ends the session, and then it emits nothing and the core falls idle, or it consumes input (R164, R185). -/
theorem CodeHandled.handled_nearer (hcode : CodeHandled q.code u t) (hcore : q.core = q.code) (hb : q.busy = true)
    (hle : t.pos ≤ t.len) (n : Nat) : (q.handled u t n).Nearer q := by
  rcases hcode.ends_or_consumes with hend | ⟨hs, hpos, hlen⟩
  · have hout : t.output = q.core.output := by
      by_contra hne
      cases hend.symm.trans (hcode.not_ended_of_emission (hcore ▸ hne))
    rcases q.handled_cases u t n with ⟨-, he⟩ | ⟨b, rest, hsome, -⟩
    · rw [he]
      exact .inl ⟨by simp [hend], hend⟩
    · simp [hout] at hsome
  · refine .inr ⟨?_, PortState.workLeft_lt_iff.2 (.inl ?_)⟩
    · rcases q.handled_cases u t n with ⟨-, he⟩ | ⟨b, rest, -, he⟩ <;> rw [he]
      · simp [State.not_ended_of_decoding hs]
      · exact hb
    · rw [PortState.handled_code]
      omega

/-- A cycle of a busy core that is no wait brings the end nearer (R193, R164). -/
theorem PortLive.cycle_nearer (h : PortLive q) (hi : PortInv q) (hr : p.rst = false) (hb : q.busy = true)
    (hne : q.cycle p ≠ q) : (q.cycle p).Nearer q := by
  rcases q.cycle_cases p with ⟨hr', -⟩ | ⟨-, -, -, he⟩ | ⟨-, hb', -⟩ | ⟨-, -, n, hd, he⟩ | ⟨-, -, -, -, -, he⟩ |
    ⟨-, -, -, -, b, rest, hp, he⟩ | ⟨-, -, -, -, -, -, he⟩ | ⟨-, -, -, -, hn, -, he⟩ | ⟨-, -, -, hp, hn, he⟩
  · cases hr.symm.trans hr'
  · exact absurd he hne
  · cases hb.symm.trans hb'
  · rw [he]
    exact .inr ⟨hb, PortState.workLeft_lt_iff.2
      (.inr ⟨rfl, .inr ⟨rfl, .inr ⟨rfl, hd ▸ Nat.lt_succ_self n⟩⟩⟩)⟩
  · exact absurd he hne
  · rw [he]
    refine .inr ⟨hi.send_busy hp p.pace, PortState.workLeft_lt_iff.2 (.inr ⟨?_, .inl ?_⟩)⟩
    · rw [PortState.send_code]
    · simp [hp]
  · exact absurd he hne
  · rw [he]
    refine .inr ⟨hb, PortState.workLeft_lt_iff.2 (.inr ⟨rfl, .inr ⟨rfl, .inl ?_⟩⟩)⟩
    show q.need - (q.taken ++ [p.inData]).length < q.need - q.taken.length
    rw [List.length_append, List.length_singleton]
    omega
  · rcases hi.complete_cases hp hn p.pace with hw | ⟨u, t, hcode, hh⟩
    · exact absurd (he.trans hw) hne
    · obtain ⟨-, -, hcore⟩ := hi.delivered hp
      have hlive := h.liveInv hb (hcore ▸ hi.running hb)
      rw [he, hh]
      exact hcode.handled_nearer hcore hb (hcode.stateInv hlive).posLe p.pace

/-- Some cycle from the `n`-th on changes a busy core, if the byte it asks for is presented some time and the byte it presents is
accepted some time (R190 H2 and H3, R193). -/
theorem PortLive.wait_ends (h : PortLive q) (hi : PortInv q) (hb : q.busy = true) (hr : ∀ m, (cycleAt m).rst = false)
    (hoffered : q.inReady (cycleAt n) = true → ∃ m ≥ n, (cycleAt m).inValid = true)
    (haccepted : q.outValid (cycleAt n) = true → ∃ m ≥ n, (cycleAt m).outReady = true) :
    ∃ m ≥ n, q.cycle (cycleAt m) ≠ q := by
  by_contra! hstuck
  have hwaits : ∀ m ≥ n, (q.inReady (cycleAt m) = true ∧ (cycleAt m).inValid = false) ∨
      (q.outValid (cycleAt m) = true ∧ (cycleAt m).outReady = false) := fun m hm =>
    ((h.cycle_eq_self_iff hi (hr m)).1 (hstuck m hm)).resolve_left fun ⟨hidle, _⟩ => by
      cases hb.symm.trans hidle
  rcases hwaits n le_rfl with ⟨hready, -⟩ | ⟨hvalid, -⟩
  · obtain ⟨-, -, -, hp, -⟩ := PortState.inReady_eq_true.1 hready
    obtain ⟨m, hm, hin⟩ := hoffered hready
    rcases hwaits m hm with ⟨-, hno⟩ | ⟨hvalid, -⟩
    · cases hin.symm.trans hno
    · obtain ⟨-, -, -, hsome⟩ := PortState.outValid_eq_true.1 hvalid
      exact hsome hp
  · obtain ⟨-, -, -, hp⟩ := PortState.outValid_eq_true.1 hvalid
    obtain ⟨m, hm, hout⟩ := haccepted hvalid
    rcases hwaits m hm with ⟨hready, -⟩ | ⟨-, hno⟩
    · obtain ⟨-, -, -, hnone, -⟩ := PortState.inReady_eq_true.1 hready
      exact hp hnone
    · cases hout.symm.trans hno

/-! ### The cycles of a session, one after another -/

/-- The port state before cycle `n` of the host's. -/
abbrev Machine.PortState.before (q : PortState) (cycleAt : Nat → PortIn) (n : Nat) : PortState :=
  q.cycles ((List.range n).map cycleAt)

theorem Machine.PortState.before_succ (q : PortState) (cycleAt : Nat → PortIn) (n : Nat) :
    q.before cycleAt (n + 1) = (q.before cycleAt n).cycle (cycleAt n) := by
  rw [PortState.before, List.range_succ, List.map_append, PortState.cycles_append]
  rfl

/-- While no cycle changes the state before cycle `n`, it stays. -/
theorem Machine.PortState.before_of_waits {m : Nat} (hm : n ≤ m)
    (hwait : ∀ k, n ≤ k → k < m → (q.before cycleAt n).cycle (cycleAt k) = q.before cycleAt n) :
    q.before cycleAt m = q.before cycleAt n := by
  induction m, hm using Nat.le_induction with
  | base => rfl
  | succ m hm ih =>
    rw [PortState.before_succ, ih fun k hk hlt => hwait k hk (hlt.trans (Nat.lt_succ_self m)),
      hwait m hm (Nat.lt_succ_self m)]

/-- A host that does its duties in a session from `q` (R190 H1 to H3) and commands no reset. -/
structure DutifulHost (q : PortState) (cycleAt : Nat → PortIn) : Prop where
  noReset : ∀ n, (cycleAt n).rst = false
  honest : ∀ n, HonestCycle (cycleAt n) (q.before cycleAt n)
  offers : ∀ n, (q.before cycleAt n).inReady (cycleAt n) = true → ∃ m ≥ n, (cycleAt m).inValid = true
  accepts : ∀ n, (q.before cycleAt n).outValid (cycleAt n) = true → ∃ m ≥ n, (cycleAt m).outReady = true

namespace DutifulHost

/-- Both invariants hold before every cycle. -/
theorem invariants (hhost : DutifulHost q cycleAt) (hi : PortInv q) (h : PortLive q) (n : Nat) :
    PortInv (q.before cycleAt n) ∧ PortLive (q.before cycleAt n) := by
  induction n with
  | zero => exact ⟨hi, h⟩
  | succ n ih =>
    obtain ⟨hin, hlive⟩ := ih
    rw [PortState.before_succ]
    exact ⟨hin.cycle (hhost.honest n), hlive.cycle hin (cycleAt n)⟩

/-- A busy core comes nearer to the end some time: in the first cycle that is no wait. -/
theorem nearer (hhost : DutifulHost q cycleAt) (hi : PortInv q) (h : PortLive q)
    (hb : (q.before cycleAt n).busy = true) : ∃ m, (q.before cycleAt m).Nearer (q.before cycleAt n) := by
  obtain ⟨hin, hlive⟩ := hhost.invariants hi h n
  have hmoves := hlive.wait_ends hin hb hhost.noReset (hhost.offers n) (hhost.accepts n)
  obtain ⟨hge, hmove⟩ := Nat.find_spec hmoves
  have hsame : q.before cycleAt (Nat.find hmoves) = q.before cycleAt n :=
    PortState.before_of_waits hge fun k hk hlt => by
      by_contra hne
      exact Nat.find_min hmoves hlt ⟨hk, hne⟩
  refine ⟨Nat.find hmoves + 1, ?_⟩
  rw [PortState.before_succ, hsame]
  exact hlive.cycle_nearer hin (hhost.noReset _) hb hmove

/-- The work left runs out, so a busy core falls idle with its session ended. -/
theorem session_ends (hhost : DutifulHost q cycleAt) (hi : PortInv q) (h : PortLive q)
    (hb : (q.before cycleAt n).busy = true) :
    ∃ m, (q.before cycleAt m).busy = false ∧ (q.before cycleAt m).core.ended = true := by
  induction hw : (q.before cycleAt n).workLeft using WellFoundedLT.induction generalizing n with
  | ind w ih =>
    obtain ⟨m, hend | ⟨hbusy, hlt⟩⟩ := hhost.nearer hi h hb
    · exact ⟨m, hend⟩
    · exact ih _ (hw ▸ hlt) hbusy rfl

end DutifulHost

end Sys2Proof

end

/-! ## A fresh session against what stood before it

All that `S.START` does not write is the host's part and `ret`, and `ret` is written by the first fetch. -/

section

namespace Sys2Proof

open Machine

variable {s s' : State} {i : Instr} {n : Nat}

/-- Two fresh sessions on the same host's part differ in what the last operation before them returned. -/
theorem beginSession_eq_returning (hin : s'.input = s.input) (hr : s'.rst = s.rst) (hstart : s'.start = s.start)
    (hlen : s'.inLen = s.inLen) (n : Nat) : s'.beginSession n = (s.beginSession n).returning s'.ret := by
  simp [State.beginSession, State.sessionInit, State.dictInit, State.returning, hin, hr, hstart, hlen]

/-- A form overwrites `ret` and does not read it (R110; log entry 2). -/
theorem fetchForm_returning (hi : IsFetchForm i = true) (s : State) (r : Ret) :
    exec i (s.returning r) = exec i s := by
  cases i with
  | ncPair0 a n => rfl
  | ncPair1 b => rfl
  | ncTail a p => rfl
  | ncEos0 => rfl
  | ncEos1 x => rfl
  | ncEosn => rfl
  | _ => cases hi

/-- `S.START` with the first form's bytes there runs the form and its class in the fresh session (R180). -/
theorem execSStart_eq_runCode (hs : s.state ≠ .decoding) (hi : (s.beginSession n).fetch = .ok i) :
    exec (.sStart n) s = runCode i (s.beginSession n) := by
  show execSStart n s = _
  rw [execSStart, if_neg hs, hi]

/-- What the last operation returned is forgotten with the first code. -/
theorem runCode_returning (hi : IsFetchForm i = true) (s : State) (r : Ret) :
    runCode i (s.returning r) = runCode i s := by
  rw [runCode, runCode, runFetched_eq_exec hi, runFetched_eq_exec hi, fetchForm_returning hi]

end Sys2Proof

end

/-! ## The obligations on reset and hazards -/

section

namespace Sys2Proof.Proofs

open Machine

/-- Settles O60: the host of the statement is dutiful, and the core is busy before the first cycle. -/
theorem portSessionEndsUnderHostDuties : Obligations.PortSessionEndsUnderHostDuties := by
  intro q cycleAt hi h hb hr hhonest hoffers haccepts
  have hhost : DutifulHost q cycleAt := ⟨hr, hhonest, hoffers, haccepts⟩
  exact hhost.session_ends (n := 0) hi h hb

/-- Settles O37: the two fresh sessions differ in `ret` only, which the first fetch, its bytes being there, writes. -/
theorem sessionStartForgetsThePast : Obligations.SessionStartForgetsThePast := by
  intro s s' len hs hs' hsupplied hin hr hstart hlen
  have hfresh := beginSession_eq_returning hin hr hstart hlen len
  obtain ⟨i, hi⟩ : ∃ i, (s.beginSession len).fetch = .ok i := State.fetch_of_supplied fun a _ ha => hsupplied a ha
  have hi' : (s'.beginSession len).fetch = .ok i := by rw [hfresh]; exact hi
  rw [execSStart_eq_runCode hs' hi', execSStart_eq_runCode hs hi, hfresh,
    runCode_returning (State.fetch_selected hi).2]

/-- Settles O41: with `rst` high the step is `State.hardReset`, the cycle is `PortState.reset`, and both handshakes are low. -/
theorem hardwareResetOverrides : Obligations.HardwareResetOverrides := by
  refine ⟨fun s hr => ?_, fun p q hr => ?_⟩
  · have hstep : step s = .next s.hardReset := if_pos hr
    rw [hstep]
    rfl
  · have hcycle : q.cycle p = q.reset := if_pos hr
    rw [hcycle]
    exact ⟨by simp [PortState.inReady, hr], by simp [PortState.outValid, hr], rfl, rfl, rfl⟩

end Sys2Proof.Proofs

end
